-- ==== Sys2Proof/Word.lean ====
section
/-! DEFINITION. The words of HBC: a bus word of 64 bits (R7 `W`, R10), a byte (R7 `NSYM`) and a 32-bit count (R7 `LENW`). -/

namespace Sys2Proof

/-- A register or bus word, a bit-buffer word and a command word: 64 bits (R7, R51, R80). -/
abbrev Word := BitVec 64

/-- A byte of the alphabet, of IBUF or of OBUF (R7). -/
abbrev Byte := BitVec 8

/-- A 32-bit unsigned count or index: IMM32 (R84) and ERR_INDEX (R35). -/
abbrev Count32 := BitVec 32

end Sys2Proof
end

