-- ==== Sys2Proof/Config.lean ====
section
/-! DEFINITION. What an implementation of HBC fixes (the parameters of R9) and the free values, which nothing in Lean can
evaluate: what the spec calls "any value" (R11, R49, R54, R196) and the time a pending command waits (R108). -/

namespace Sys2Proof

/-- The parameters the spec leaves open (R9). A state carries them unchanged from step to step (assumption 1).
BUS_PROTOCOL is invisible to every rule (R5) and has no field. -/
structure Config where
  /-- `BBUF_WORDS`: 64-bit words of the bit buffer. -/
  bbufWords : Nat
  /-- `IBUF_SIZE`: bytes of the input byte buffer. -/
  ibufSize : Nat
  /-- `OBUF_SIZE`: bytes of the output byte buffer. -/
  obufSize : Nat
  /-- `BASE`: the bus address of offset 0 of the block. -/
  base : Nat
deriving DecidableEq, Repr

/-- `BBUF_CAP = 64 * BBUF_WORDS` (R9). -/
def Config.bbufCap (c : Config) : Nat := 64 * c.bbufWords

/-- The size of the block's window in bytes: 4 MiB (R50). -/
def Config.windowSize : Nat := 0x400000

/-- The constraints R9 puts on the parameters. -/
abbrev Config.Ok (c : Config) : Prop :=
  (8 ≤ c.bbufWords ∧ c.bbufWords ≤ 16384) ∧
  (c.ibufSize % 8 = 0 ∧ 256 ≤ c.ibufSize ∧ c.ibufSize ≤ 1048576) ∧
  (c.obufSize % 8 = 0 ∧ c.bbufCap ≤ c.obufSize ∧ c.obufSize ≤ 1048576) ∧
  c.base % Config.windowSize = 0

/-- The parameters of the spec's own test vectors (95_test_vectors.md: BBUF_WORDS = 8, IBUF_SIZE = 512, OBUF_SIZE = 512),
with BASE = 0. DESIGN CHOICE (assumption 1), unsafe only for a claim about `State.reset` itself: every other claim holds
for all parameters. -/
def Config.vectors : Config := ⟨8, 512, 512, 0⟩

/-- FREE VALUE: the word of one draw, for a host read that "returns any value" (R54, R196). Assumption 3. -/
opaque Config.freeWord : Nat → Word

/-- FREE VALUE: byte `a` of a RAM whose contents were drawn at a reset: "any value (one draw per element at reset)"
(R49, 93_implementation_defined.md I5). First argument: the draw; second: the byte's index. Assumption 4. -/
opaque Config.powerOnByte : Nat → Nat → Byte

/-- FREE VALUE: how many host accesses are performed between the issue of a command and its engine step: some finite
number, no bound given (R108, R202). Assumption 5. -/
opaque Config.engineDelay : Nat → Nat

end Sys2Proof
end

