-- ==== Sys2Proof/Syntax.lean ====
section
/-! DEFINITION. The commands of HBC: one constructor for each of the 11 rows of spec/opcode_table.json (R86). Every operand
but NBITS and IMM32 is implicit: a register or a buffer of the state (R85). -/

namespace Sys2Proof

/-- A command (R86). -/
inductive Instr where
  /-- NOP, 0x00 (R106). -/
  | nop
  /-- TREE_LOAD, 0x10 (R131). -/
  | treeLoad
  /-- CW_CLEAR, 0x11 (R135). -/
  | cwClear
  /-- CW_DERIVE, 0x12 (R136). -/
  | cwDerive
  /-- ENC_BLOCK, 0x20 (R150). -/
  | encBlock
  /-- DEC_BLOCK, 0x30 (R161). -/
  | decBlock
  /-- DEC_RESET, 0x31 (R163). -/
  | decReset
  /-- PK_CLEAR, 0x40 (R121). -/
  | pkClear
  /-- PK_APPEND n, 0x41, format B: NBITS = n (R83, R123). -/
  | pkAppend (nbits : BitVec 7)
  /-- PK_GET i, 0x42, format I: IMM32 = i (R84, R125). -/
  | pkGet (index : Count32)
  /-- PK_TRUNCATE n, 0x43, format I: IMM32 = n (R84, R127). -/
  | pkTruncate (count : Count32)
deriving DecidableEq, Repr

end Sys2Proof
end

