-- ==== Sys2Proof/WellFormed.lean ====
section
/-! DEFINITION. Which commands have an encoding: the one operand whose field is wider than its range is NBITS (R83, R87). -/

namespace Sys2Proof

/-- NBITS is 0..64 although its field has 7 bits (R83); IMM32 may have any value (R84). -/
def Instr.wellFormed : Instr → Bool
  | .nop => true
  | .treeLoad => true
  | .cwClear => true
  | .cwDerive => true
  | .encBlock => true
  | .decBlock => true
  | .decReset => true
  | .pkClear => true
  | .pkAppend nbits => decide (nbits.toNat ≤ 64)
  | .pkGet _ => true
  | .pkTruncate _ => true

end Sys2Proof
end

