-- ==== Sys2Proof/Decode.lean ====
section
/-! DEFINITION. The command word: fields and formats (R80 to R85), the opcode map (R86), decoding in the order of R87, and
the encoder. -/

namespace Sys2Proof

/-- Why a word is no command, in the order R87 checks it; each carries the opcode byte. -/
inductive DecodeError where
  /-- ILLEGAL_CMD sub 1: the opcode is not in the map of R86. -/
  | unknownOpcode (op : Byte)
  /-- ILLEGAL_CMD sub 2: a reserved bit of the opcode's format is set. -/
  | reservedBits (op : Byte)
  /-- ILLEGAL_CMD sub 3: NBITS is over 64. -/
  | nbitsRange (nbits : BitVec 7) (op : Byte)
deriving DecidableEq, Repr

/-- A row of the opcode map: the format of an opcode (R82 to R84) and the command it makes of its operand. -/
inductive Row where
  | formatN (i : Instr)
  | formatB (mk : BitVec 7 → Instr)
  | formatI (mk : Count32 → Instr)

/-- The opcode map (R86): each opcode with its format and command. -/
def opcodeMap : List (Byte × Row) :=
  [ (0x00#8, .formatN .nop),
    (0x10#8, .formatN .treeLoad),
    (0x11#8, .formatN .cwClear),
    (0x12#8, .formatN .cwDerive),
    (0x20#8, .formatN .encBlock),
    (0x30#8, .formatN .decBlock),
    (0x31#8, .formatN .decReset),
    (0x40#8, .formatN .pkClear),
    (0x41#8, .formatB .pkAppend),
    (0x42#8, .formatI .pkGet),
    (0x43#8, .formatI .pkTruncate) ]

/-- The row of an opcode; none for the 245 opcodes not in the map (R88). -/
def rowOf (op : Byte) : Option Row := (opcodeMap.find? fun r => r.1 == op).map Prod.snd

/-- `OP = c[7:0]` (R81). -/
def opField (c : Word) : Byte := c.extractLsb' 0 8

/-- `NBITS = c[14:8]` (R83, R85). -/
def nbitsField (c : Word) : BitVec 7 := c.extractLsb' 8 7

/-- `IMM32 = c[63:32]` (R84, R85). -/
def imm32Field (c : Word) : Count32 := c.extractLsb' 32 32

/-- The reserved bits of format N, `c[63:8]` (R82). -/
def reservedN (c : Word) : BitVec 56 := c.extractLsb' 8 56

/-- The reserved bits of format B, `c[63:15]` (R83). -/
def reservedB (c : Word) : BitVec 49 := c.extractLsb' 15 49

/-- The reserved bits of format I, `c[31:8]` (R84). -/
def reservedI (c : Word) : BitVec 24 := c.extractLsb' 8 24

/-- Decoding of a command word, the checks in the order of R87. -/
def decode (c : Word) : Except DecodeError Instr :=
  match rowOf (opField c) with
  | none => .error (.unknownOpcode (opField c))
  | some (.formatN i) =>
    if reservedN c ≠ 0 then .error (.reservedBits (opField c)) else .ok i
  | some (.formatB mk) =>
    if reservedB c ≠ 0 then .error (.reservedBits (opField c))
    else if (nbitsField c).toNat > 64 then .error (.nbitsRange (nbitsField c) (opField c))
    else .ok (mk (nbitsField c))
  | some (.formatI mk) =>
    if reservedI c ≠ 0 then .error (.reservedBits (opField c)) else .ok (mk (imm32Field c))

/-- The command word of a command (R82 to R84, R86; R92 gives the operand forms `(n << 8) | 0x41`, `(i << 32) | 0x42` and
`(n << 32) | 0x43`). -/
def encode : Instr → Word
  | .nop => 0x00#64
  | .treeLoad => 0x10#64
  | .cwClear => 0x11#64
  | .cwDerive => 0x12#64
  | .encBlock => 0x20#64
  | .decBlock => 0x30#64
  | .decReset => 0x31#64
  | .pkClear => 0x40#64
  | .pkAppend nbits => (nbits.setWidth 64 <<< 8) ||| 0x41#64
  | .pkGet index => (index.setWidth 64 <<< 32) ||| 0x42#64
  | .pkTruncate count => (count.setWidth 64 <<< 32) ||| 0x43#64

/-- The `match` column of R86 for a command's row. -/
def Instr.matchWord : Instr → Word
  | .nop => 0x0000000000000000#64
  | .treeLoad => 0x0000000000000010#64
  | .cwClear => 0x0000000000000011#64
  | .cwDerive => 0x0000000000000012#64
  | .encBlock => 0x0000000000000020#64
  | .decBlock => 0x0000000000000030#64
  | .decReset => 0x0000000000000031#64
  | .pkClear => 0x0000000000000040#64
  | .pkAppend _ => 0x0000000000000041#64
  | .pkGet _ => 0x0000000000000042#64
  | .pkTruncate _ => 0x0000000000000043#64

/-- The `mask` column of R86 for a command's row. -/
def Instr.maskWord : Instr → Word
  | .nop => 0xFFFFFFFFFFFFFFFF#64
  | .treeLoad => 0xFFFFFFFFFFFFFFFF#64
  | .cwClear => 0xFFFFFFFFFFFFFFFF#64
  | .cwDerive => 0xFFFFFFFFFFFFFFFF#64
  | .encBlock => 0xFFFFFFFFFFFFFFFF#64
  | .decBlock => 0xFFFFFFFFFFFFFFFF#64
  | .decReset => 0xFFFFFFFFFFFFFFFF#64
  | .pkClear => 0xFFFFFFFFFFFFFFFF#64
  | .pkAppend _ => 0xFFFFFFFFFFFF80FF#64
  | .pkGet _ => 0x00000000FFFFFFFF#64
  | .pkTruncate _ => 0x00000000FFFFFFFF#64

/-- The command word whose low `nbits` bits are those of `w`, bit 0 the least significant, and whose other bits are 0. A
command is one 64-bit word moved in one access (R58, R80), so there is no byte order to lay out. -/
def tableWord (nbits w : Nat) : Word := BitVec.ofNat 64 (w % 2 ^ nbits)

/-- What the decoder reads from a command whose bits are `w`, numbered as spec/opcode_table.json numbers them. -/
def decodeTableWord (nbits w : Nat) : Option Instr := (decode (tableWord nbits w)).toOption

end Sys2Proof
end

