-- ==== Sys2Proof/Machine/State.lean ====
section
/-! DEFINITION. The state of HBC: every element of R22, the parameters (R9) and the model's own fields (the host's waiting
actions, what its reads returned, the free-value counter and the engine's delay), with the value each has after reset (R49). -/

namespace Sys2Proof.Machine

/-- Why the machine stops with no next state. -/
inductive Fault where
  /-- Raised by a host access at a bus address outside the block's window of 4 MiB from BASE (R50): the address does not
  exist in HBC's address space. Safe: the model stops where the platform would answer. -/
  | outsideWindow
  /-- Raised by CW_DERIVE and DEC_BLOCK when TREE_VALID = 1 and the node arena holds no tree of R41, or NODE[CURSOR] is not
  internal. R48 rules these states out in every run from reset (R160: "`step` never starts from a leaf"; assumption 11).
  Safe. -/
  | brokenTree
deriving DecidableEq, Repr

/-- Why the model has no move. -/
inductive Refusal where
  /-- Raised by an arm of `exec` for an instruction not modelled yet; no arm uses it. Safe. -/
  | notModelled (mnemonic : String)
  /-- Raised by a host access that is not 8 bytes wide or not 8-byte aligned: "unspecified behaviour in the hardware; the
  model refuses it" (R51). Safe. -/
  | accessShape
  /-- Raised by a host write, while BUSY = 1, of anything but CTRL, STATUS and CMD: "the model refuses it" (R196). Safe. -/
  | writeWhileBusy
deriving DecidableEq, Repr

/-- What the host does to the block, one at a time in arrival order (R64). -/
inductive HostAction where
  /-- A bus read of `width` bytes at bus address `addr`: `MemRead` of R11. -/
  | read (addr width : Nat)
  /-- A bus write of `width` bytes at bus address `addr`: `MemWrite` of R11. -/
  | write (addr width : Nat) (value : Word)
  /-- `wait` of R92: the host polls STATUS until BUSY = 0 before its next access (assumption 15). -/
  | wait
  /-- The reset input is asserted and released (R190). -/
  | reset
deriving DecidableEq, Repr

/-- A node of the arena (R41). -/
inductive Node where
  /-- `Leaf(s)`. -/
  | leaf (sym : Byte)
  /-- `Internal(left, right)`, two node indices. -/
  | internal (left right : Nat)
deriving DecidableEq, Repr

/-- What the bytes of a RAM that nothing has written since the last reset or clear hold. -/
inductive Fill where
  /-- Unspecified contents, drawn at a reset (R49): the number of the draw. -/
  | powerOn (draw : Nat)
  /-- All zero: a command cleared the whole RAM (R121, R135, R136, R150). -/
  | zero
deriving DecidableEq, Repr

/-- A RAM: the bytes written since its contents were last drawn or cleared, in one canonical form (`Memory.wf`). Addresses are
byte indices from the start of the RAM's window (R53, R56, R57). -/
structure Memory where
  fill : Fill
  cells : List Host.Cell
deriving DecidableEq, Repr

/-- The fields of `raise ERR(code, sub, index, sym)` (R11, R171). -/
structure Err where
  code : Byte
  sub : Byte
  index : Count32
  sym : Byte
deriving DecidableEq, Repr

/-- The state of the machine (R22). -/
structure State where
  /-- The parameters of R9; no step writes them. -/
  cfg : Config
  /-- CTRL_IRQ_EN, CTRL[0] (R26). -/
  irqEn : Bool
  /-- LAST_CMD, the read view of CMD (R27). -/
  lastCmd : Word
  /-- BUSY, STATUS[0] (R29). -/
  busy : Bool
  /-- DONE, STATUS[1] (R30). -/
  done : Bool
  /-- ERR, STATUS[2] (R31). -/
  err : Bool
  /-- TREE_VALID, STATUS[3] (R32). -/
  treeValid : Bool
  /-- OVERRUN, STATUS[5] (R34). -/
  overrun : Bool
  /-- ERR_CODE, STATUS[15:8] (R31). -/
  errCode : Byte
  /-- ERR_SUB, STATUS[23:16] (R31). -/
  errSub : Byte
  /-- ERR_INDEX, ERR_INFO[31:0] (R35). -/
  errIndex : Count32
  /-- ERR_SYM, ERR_INFO[39:32] (R35). -/
  errSym : Byte
  /-- RESULT (R36). -/
  result : Word
  /-- BBUF_LEN, a count of bits, 0..BBUF_CAP (R37). -/
  bbufLen : Nat
  /-- IN_LEN, a count of bytes, 0..IBUF_SIZE (R38). -/
  inLen : Nat
  /-- OUT_LEN, a count of bytes, 0..OBUF_SIZE (R39). -/
  outLen : Nat
  /-- CURSOR, DEC_CURSOR[8:0]: a node index, 0..510 (R43). -/
  cursor : Nat
  /-- PK_DATA (R44). -/
  pkData : Word
  /-- NODE_COUNT, TREE_INFO[9:0], 0..511 (R42). -/
  nodeCount : Nat
  /-- LEAF_COUNT, TREE_INFO[24:16], 0..256 (R42). -/
  leafCount : Nat
  /-- NODE: the arena's defined slots, slot 0 first; a slot past the end has no defined value (R41, assumption 2). -/
  nodes : List Node
  /-- CWT as its window's RAM: the length of entry s is byte 64 * s, its code bits start at byte 64 * s + 8 (R40, R90). -/
  cwt : Memory
  /-- BBUF_MEM: word w is bytes 8 * w to 8 * w + 7, least significant first (R45, R56). -/
  bbuf : Memory
  /-- IBUF (R46, R57). -/
  ibuf : Memory
  /-- OBUF (R47, R57). -/
  obuf : Memory
  /-- The model's own: how many free values have been drawn (assumption 3). -/
  draws : Nat
  /-- The model's own: host actions still performed before the pending command's engine step (R108, assumption 5). -/
  engineDelay : Nat
  /-- The host's actions not yet performed, oldest first (R64). -/
  hostQueue : List HostAction
  /-- The host's own: the words its reads returned, oldest first (R204). -/
  replies : List Word
deriving DecidableEq, Repr

/-- The outcome of an engine step or of a host access. -/
abbrev Result := Host.Outcome State Fault Refusal

/-- The state after a reset (R49): registers at the values R49 gives; the four RAMs at contents drawn by draws `draw` to
`draw + 3`; the node arena with no defined slot. The parameters and the host's own side are not the block's to reset. -/
def State.afterReset (cfg : Config) (draw : Nat) (queue : List HostAction) (replies : List Word) : State where
  cfg := cfg
  irqEn := false
  lastCmd := 0
  busy := false
  done := false
  err := false
  treeValid := false
  overrun := false
  errCode := 0
  errSub := 0
  errIndex := 0
  errSym := 0
  result := 0
  bbufLen := 0
  inLen := 0
  outLen := 0
  cursor := 0
  pkData := 0
  nodeCount := 0
  leafCount := 0
  nodes := []
  cwt := ⟨.powerOn draw, []⟩
  bbuf := ⟨.powerOn (draw + 1), []⟩
  ibuf := ⟨.powerOn (draw + 2), []⟩
  obuf := ⟨.powerOn (draw + 3), []⟩
  draws := draw + 4
  engineDelay := 0
  hostQueue := queue
  replies := replies

/-- The machine right after reset (R49, R190), with the parameters of the spec's test vectors (assumption 1) and a host that
has asked for nothing yet. -/
def State.reset : State := State.afterReset Config.vectors 0 [] []

end Sys2Proof.Machine
end

