-- ==== Sys2Proof/Machine/Ops.lean ====
section
/-! DEFINITION. The named operations over the RAMs and the registers: bytes, bits and words of a RAM (R56, R57), the bit
buffer's `setbit` and append (R11, R120), the node arena, and the events of a command's life: issue (R101), a dropped issue
(R102), completion (R103) and the recording of an error (R171), and reset (R190). -/

namespace Sys2Proof.Machine

/-! ### One byte of a RAM -/

/-- The byte listed at an address, if one is. -/
def lookupCell : List Host.Cell → Nat → Option Byte
  | [], _ => none
  | (k, v) :: rest, a => if k = a then some v else lookupCell rest a

/-- Lists byte `v` at address `a`, in address order. -/
def insertCell (a : Nat) (v : Byte) : List Host.Cell → List Host.Cell
  | [] => [(a, v)]
  | (k, w) :: rest =>
    if a < k then (a, v) :: (k, w) :: rest
    else if a = k then (a, v) :: rest
    else (k, w) :: insertCell a v rest

/-- Takes address `a` off the list. -/
def eraseCell (a : Nat) : List Host.Cell → List Host.Cell
  | [] => []
  | (k, w) :: rest => if k = a then eraseCell a rest else (k, w) :: eraseCell a rest

/-- What an unlisted address of a RAM is known to hold: nothing after a reset (R49: "unspecified: any value"), 0 after a
clear. -/
def Fill.unlisted : Fill → Option Byte
  | .powerOn _ => none
  | .zero => some 0

/-- The byte read from an unlisted address: a free value after a reset (assumption 4), 0 after a clear. -/
def Fill.byte : Fill → Nat → Byte
  | .powerOn draw, a => Config.powerOnByte draw a
  | .zero, _ => 0

/-- The canonical form of a RAM: addresses strictly rising, and no entry equal to what an unlisted address is known to hold. -/
abbrev Memory.wf (m : Memory) : Prop :=
  m.cells.Pairwise (fun x y => x.1 < y.1) ∧ ∀ c ∈ m.cells, m.fill.unlisted ≠ some c.2

/-- Every listed byte lies below `size`. -/
abbrev Memory.Within (m : Memory) (size : Nat) : Prop := ∀ c ∈ m.cells, c.1 < size

/-- A RAM all of whose bytes are 0. -/
def Memory.zeroed : Memory := ⟨.zero, []⟩

/-- Byte `a` of a RAM. -/
def Memory.byte (m : Memory) (a : Nat) : Byte := (lookupCell m.cells a).getD (m.fill.byte a)

/-- Writes byte `a` of a RAM. -/
def Memory.setByte (m : Memory) (a : Nat) (v : Byte) : Memory :=
  if m.fill.unlisted = some v then { m with cells := eraseCell a m.cells }
  else { m with cells := insertCell a v m.cells }

/-! ### Bits and words of a RAM -/

/-- `x` with bit `j` replaced by `b`. -/
def withBit (x : Byte) (j : Nat) (b : Bool) : Byte :=
  (x &&& ~~~(1#8 <<< j)) ||| ((BitVec.ofBool b).setWidth 8 <<< j)

/-- Bit `i` of a RAM: bit `i mod 8` of byte `i / 8`. With words of 8 bytes, least significant first, that is bit `i mod 64` of
word `i / 64` (R56). -/
def Memory.bit (m : Memory) (i : Nat) : Bool := (m.byte (i / 8)).getLsbD (i % 8)

/-- Writes bit `i` of a RAM and no other bit. -/
def Memory.setBit (m : Memory) (i : Nat) (b : Bool) : Memory :=
  m.setByte (i / 8) (withBit (m.byte (i / 8)) (i % 8) b)

/-- Writes the bits of a list at consecutive indices from `i`, first bit first. -/
def Memory.setBits (m : Memory) (i : Nat) : List Bool → Memory
  | [] => m
  | b :: rest => (m.setBit i b).setBits (i + 1) rest

/-- The number whose bits below `n` are `f 0` to `f (n - 1)`, bit 0 first. -/
def natOfBits (f : Nat → Bool) : Nat → Nat
  | 0 => 0
  | n + 1 => natOfBits f n + (if f n then 2 ^ n else 0)

/-- The 64-bit word whose bit j is `f j` (R58). -/
def wordOfBits (f : Nat → Bool) : Word := BitVec.ofNat 64 (natOfBits f 64)

/-- Word `w` of a RAM: 8 bytes, least significant first (R57). -/
def Memory.word (m : Memory) (w : Nat) : Word := wordOfBits fun j => m.bit (64 * w + j)

/-- Writes the low `n` bytes of `v` at consecutive addresses from `a`, least significant first. -/
def Memory.setBytes (m : Memory) (a : Nat) (v : Word) : Nat → Memory
  | 0 => m
  | n + 1 => (m.setBytes a v n).setByte (a + n) (v.extractLsb' (8 * n) 8)

/-- Writes word `w` of a RAM, all 64 bits (R56, R57). -/
def Memory.setWord (m : Memory) (w : Nat) (v : Word) : Memory := m.setBytes (8 * w) v 8

/-- Bits `i` to `i + n - 1` of a RAM, as a bit sequence (R10). -/
def Memory.bits (m : Memory) (i n : Nat) : List Bool := (List.range n).map fun t => m.bit (i + t)

/-- Bytes 0 to `n - 1` of a RAM. -/
def Memory.bytes (m : Memory) (n : Nat) : List Byte := (List.range n).map m.byte

/-! ### The codeword table -/

/-- `CWT[s].len` (R40): byte 64 * s of the table's window (R90). -/
def Memory.cwLen (m : Memory) (s : Byte) : Nat := (m.byte (64 * s.toNat)).toNat

/-- The index of `CWT[s].bit(0)` among the bits of the table's window: bit 0 of CW_BITS0[s], at +0x08 of entry s (R90). -/
def cwBitBase (s : Byte) : Nat := 8 * (64 * s.toNat + 8)

/-- `CWT[s].bit(t)` (R40, R90). -/
def Memory.cwBit (m : Memory) (s : Byte) (t : Nat) : Bool := m.bit (cwBitBase s + t)

/-- `cw(s) = [CWT[s].bit(0), ..., CWT[s].bit(CWT[s].len - 1)]` (R40, R152). -/
def Memory.codeword (m : Memory) (s : Byte) : List Bool := m.bits (cwBitBase s) (m.cwLen s)

/-- `CWT[s].len <- |p|` and `CWT[s].bit(t) <- p[t]` for t below |p| (R136). -/
def Memory.setCodeword (m : Memory) (s : Byte) (p : List Bool) : Memory :=
  (m.setByte (64 * s.toNat) (BitVec.ofNat 8 p.length)).setBits (cwBitBase s) p

/-! ### The bit buffer and the node arena -/

/-- Appends bits at index BBUF_LEN and raises BBUF_LEN (R120): the packing primitive of PK_APPEND and ENC_BLOCK. -/
def State.appendBits (s : State) (bits : List Bool) : State :=
  { s with bbuf := s.bbuf.setBits s.bbufLen bits, bbufLen := s.bbufLen + bits.length }

/-- An empty bit buffer, every word of BBUF_MEM zero (R121, R150). -/
def State.clearBbuf (s : State) : State := { s with bbuf := Memory.zeroed, bbufLen := 0 }

/-- `NODE[k]` where slot k is part of the tree, `k < NODE_COUNT` (R41). -/
def State.node (s : State) (k : Nat) : Option Node := if k < s.nodeCount then s.nodes[k]? else none

/-! ### The life of a command -/

/-- `complete` (R11, R103): BUSY falls, DONE rises, the error fields stay as issue left them. -/
def State.complete (s : State) : State := { s with busy := false, done := true }

/-- `raise ERR(code, sub, index, sym)` with the completion that records it (R103, R171). This is the one error entry of HBC:
no mode, mask, stack or vector changes (R178), and there is no return operation (R179: the next issue clears it). -/
def State.raise (s : State) (e : Err) : State :=
  { s with
    busy := false
    done := true
    err := true
    errCode := e.code
    errSub := e.sub
    errIndex := e.index
    errSym := e.sym }

/-- The fields an accepted CMD write sets, with the engine step due after `delay` more host actions (R101). -/
def State.pend (s : State) (c : Word) (delay : Nat) : State :=
  { s with
    lastCmd := c
    done := false
    err := false
    errCode := 0
    errSub := 0
    errIndex := 0
    errSym := 0
    busy := true
    engineDelay := delay }

/-- Issue (R101): the command becomes pending, for a number of host actions that nothing bounds (R108): a free value. -/
def State.issue (s : State) (c : Word) : State :=
  { s.pend c (Config.engineDelay s.draws) with draws := s.draws + 1 }

/-- A CMD write while BUSY = 1 is dropped (R102). -/
def State.dropCommand (s : State) : State := { s with overrun := true }

/-- A write of `v` to STATUS (R28): W1C of DONE and OVERRUN, nothing else. -/
def State.ackStatus (s : State) (v : Word) : State :=
  { s with
    done := s.done && !v.getLsbD 1
    overrun := s.overrun && !v.getLsbD 5 }

/-- The reset input (R190): every element of R22 at its value of R49, a pending command abandoned (assumption 8). -/
def State.resetInput (s : State) : State := State.afterReset s.cfg s.draws s.hostQueue s.replies

end Sys2Proof.Machine
end

