-- ==== Sys2Proof/Machine/Operands.lean ====
section
/-! DEFINITION. The implicit operands of the commands (R85): the bits of the bit buffer, the input bytes, and the bits of
PK_DATA. The explicit ones, NBITS and IMM32, are fields of the command (Decode.lean). -/

namespace Sys2Proof.Machine

/-- `BBUF.bit(0 .. BBUF_LEN-1)`: the shape sequence of TREE_LOAD (R89, R130) and the block of DEC_BLOCK (R161). -/
def State.blockBits (s : State) : List Bool := s.bbuf.bits 0 s.bbufLen

/-- `IBUF[0 .. IN_LEN-1]`: the alphabet sequence of TREE_LOAD (R89, R130) and the input block of ENC_BLOCK (R150). -/
def State.inputBytes (s : State) : List Byte := s.ibuf.bytes s.inLen

/-- `OBUF[0 .. OUT_LEN-1]`: the bytes the last DEC_BLOCK emitted (R39, R47). -/
def State.outputBytes (s : State) : List Byte := s.obuf.bytes s.outLen

/-- `PK_DATA[0 .. n-1]`, bit 0 first: what PK_APPEND n appends (R44, R123). -/
def State.pkBits (s : State) (n : Nat) : List Bool := (List.range n).map s.pkData.getLsbD

end Sys2Proof.Machine
end

