-- ==== Sys2Proof/Machine/Flags.lean ====
section
/-! DEFINITION. The registers computed from fields of the state (STATUS, ERR_INFO, TREE_INFO, DEC_CURSOR, CFG0, CFG1, ID), the
interrupt line (R176), and the error causes of R170, one definition a row. -/

namespace Sys2Proof.Machine

/-! ### Registers -/

/-- A flag as bit `j` of a register. -/
def flagAt (b : Bool) (j : Nat) : Word := (BitVec.ofBool b).setWidth 64 <<< j

/-- CUR_AT_ROOT, STATUS[4] (R33). -/
def State.curAtRoot (s : State) : Bool := s.cursor == 0

/-- STATUS (R28). -/
def State.statusWord (s : State) : Word :=
  flagAt s.busy 0 ||| flagAt s.done 1 ||| flagAt s.err 2 ||| flagAt s.treeValid 3 ||| flagAt s.curAtRoot 4 |||
  flagAt s.overrun 5 ||| (s.errCode.setWidth 64 <<< 8) ||| (s.errSub.setWidth 64 <<< 16)

/-- ERR_INFO (R35). -/
def State.errInfoWord (s : State) : Word := s.errIndex.setWidth 64 ||| (s.errSym.setWidth 64 <<< 32)

/-- TREE_INFO (R42). -/
def State.treeInfoWord (s : State) : Word :=
  (BitVec.ofNat 10 s.nodeCount).setWidth 64 ||| ((BitVec.ofNat 9 s.leafCount).setWidth 64 <<< 16)

/-- DEC_CURSOR (R43). -/
def State.cursorWord (s : State) : Word := (BitVec.ofNat 9 s.cursor).setWidth 64

/-- ID (R2, R23). -/
def idWord : Word := 0x0000000148424331#64

/-- CFG0 (R24). -/
def cfg0Word (c : Config) : Word :=
  (BitVec.ofNat 32 c.bbufWords).setWidth 64 ||| ((BitVec.ofNat 32 c.ibufSize).setWidth 64 <<< 32)

/-- CFG1 (R25). -/
def cfg1Word (c : Config) : Word := (BitVec.ofNat 32 c.obufSize).setWidth 64

/-- The word a host reads for a node (R91). -/
def Node.word : Node → Word
  | .leaf s => 1#64 ||| (s.setWidth 64 <<< 8)
  | .internal l r => ((BitVec.ofNat 9 l).setWidth 64 <<< 16) ||| ((BitVec.ofNat 9 r).setWidth 64 <<< 32)

/-- The interrupt line: `IRQ = CTRL.IRQ_EN AND STATUS.DONE` (R176). -/
def State.irq (s : State) : Bool := s.irqEn && s.done

/-! ### Error causes (R170) -/

/-- OUT_OF_RANGE sub 1: bit index `i >= BBUF_LEN` (PK_GET, R125). -/
def Err.getRange (i : Count32) : Err := ⟨1, 1, i, 0⟩

/-- OUT_OF_RANGE sub 2: truncate count `n > BBUF_LEN` (PK_TRUNCATE, R127). -/
def Err.truncateRange (n : Count32) : Err := ⟨1, 2, n, 0⟩

/-- CORRUPT_TREE, sub-codes 1 to 6 (TREE_LOAD, R131). -/
def Err.corruptTree (sub index : Nat) : Err := ⟨2, BitVec.ofNat 8 sub, BitVec.ofNat 32 index, 0⟩

/-- NO_TREE: TREE_VALID = 0 (CW_DERIVE, R136; DEC_BLOCK, R161). -/
def Err.noTree : Err := ⟨3, 0, 0, 0⟩

/-- NO_CODEWORD: input byte `sym` at index `j` has `CWT[sym].len = 0` (ENC_BLOCK, R150). -/
def Err.noCodeword (j : Nat) (sym : Byte) : Err := ⟨4, 0, BitVec.ofNat 32 j, sym⟩

/-- CAPACITY sub 1: the codeword of input byte `j` does not fit (ENC_BLOCK, R150). -/
def Err.encodeCapacity (j : Nat) (sym : Byte) : Err := ⟨5, 1, BitVec.ofNat 32 j, sym⟩

/-- CAPACITY sub 2: the appended bits do not fit; the index is BBUF_LEN before the command (PK_APPEND, R123). -/
def Err.appendCapacity (len : Nat) : Err := ⟨5, 2, BitVec.ofNat 32 len, 0⟩

/-- ILLEGAL_CMD, sub-codes 1 to 3 (R87, R107). -/
def Err.illegal : DecodeError → Err
  | .unknownOpcode op => ⟨6, 1, 0, op⟩
  | .reservedBits op => ⟨6, 2, 0, op⟩
  | .nbitsRange n op => ⟨6, 3, n.setWidth 32, op⟩

end Sys2Proof.Machine
end

