-- ==== Sys2Proof/Machine/Control.lean ====
section
/-! DEFINITION. The control command NOP (R106) and what the engine does with an illegal command word (R107). -/

namespace Sys2Proof.Machine

/-- NOP: `complete` (R106). -/
def execNop (s : State) : Result := .next s.complete

/-- An illegal command word: the `raise` of R87, and nothing else (R107). -/
def execIllegal (e : DecodeError) (s : State) : Result := .next (s.raise (Err.illegal e))

end Sys2Proof.Machine
end

