-- ==== Sys2Proof/Machine/Packer.lean ====
section
/-! DEFINITION. The bit packer commands (41_packer.md): PK_CLEAR, PK_APPEND, PK_GET, PK_TRUNCATE. -/

namespace Sys2Proof.Machine

/-- PK_CLEAR (R121): every word of BBUF_MEM and BBUF_LEN to 0. -/
def execPkClear (s : State) : Result := .next s.clearBbuf.complete

/-- PK_APPEND n (R123). A word with NBITS over 64 is no PK_APPEND (R87 refuses it at decoding); the meaning answers such an
ill-formed command with the same ILLEGAL_CMD sub 3 that R123 lists among its errors (assumption 10). -/
def execPkAppend (nbits : BitVec 7) (s : State) : Result :=
  if nbits.toNat > 64 then execIllegal (.nbitsRange nbits 0x41#8) s
  else if s.bbufLen + nbits.toNat > s.cfg.bbufCap then .next (s.raise (Err.appendCapacity s.bbufLen))
  else .next (s.appendBits (s.pkBits nbits.toNat)).complete

/-- PK_GET i (R125): RESULT is the bit read, zero-extended; unchanged on failure. -/
def execPkGet (index : Count32) (s : State) : Result :=
  if index.toNat ≥ s.bbufLen then .next (s.raise (Err.getRange index))
  else .next { s with result := flagAt (s.bbuf.bit index.toNat) 0 }.complete

/-- PK_TRUNCATE n (R127): the last n bits are zeroed and taken off. -/
def execPkTruncate (count : Count32) (s : State) : Result :=
  if count.toNat > s.bbufLen then .next (s.raise (Err.truncateRange count))
  else
    .next
      { s with
        bbuf := s.bbuf.setBits (s.bbufLen - count.toNat) (List.replicate count.toNat false)
        bbufLen := s.bbufLen - count.toNat }.complete

end Sys2Proof.Machine
end

