-- ==== Sys2Proof/Machine/Tree.lean ====
section
/-! DEFINITION. The tree loader and the codeword deriver (42_tree.md): TREE_LOAD, CW_CLEAR, CW_DERIVE. -/

namespace Sys2Proof.Machine

/-! ### TREE_LOAD -/

/-- A scratch slot `T[k]` of TREE_LOAD before linking (R131). -/
inductive Scratch where
  | leaf (sym : Byte)
  | internal
deriving DecidableEq, Repr

/-- The variables of TREE_LOAD's loop (R131): shape index `k`, alphabet index `a`, subtrees still to read `need`, the counts of
internal nodes and leaves, and the scratch slots `T[0 .. k-1]`. -/
structure Walk where
  k : Nat
  a : Nat
  need : Nat
  nint : Nat
  nleaf : Nat
  t : List Scratch
deriving DecidableEq, Repr

/-- The variables before the loop (R131). -/
def Walk.start : Walk := ⟨0, 0, 1, 0, 0, []⟩

/-- The loop's work on a leaf bit with alphabet byte `sym` (R131). -/
def Walk.leaf (w : Walk) (sym : Byte) : Walk :=
  { w with k := w.k + 1, a := w.a + 1, nleaf := w.nleaf + 1, need := w.need - 1, t := w.t ++ [.leaf sym] }

/-- The loop's work on an internal bit (R131). -/
def Walk.internal (w : Walk) : Walk :=
  { w with k := w.k + 1, nint := w.nint + 1, need := w.need + 1, t := w.t ++ [.internal] }

/-- The loop of TREE_LOAD (R131) over the shape bits from index k on; a failure carries its sub-code and index. -/
def loadWalk (alphabet : List Byte) : List Bool → Walk → Except (Nat × Nat) Walk
  | [], w => if w.need = 0 then .ok w else .error (1, w.k)
  | b :: rest, w =>
    if w.need = 0 then .ok w
    else if b then
      match alphabet[w.a]? with
      | none => .error (2, w.k)
      | some sym => loadWalk alphabet rest (w.leaf sym)
    else if w.nint = 255 then .error (3, w.k)
    else loadWalk alphabet rest w.internal

/-- The walk and the three checks after it (R131): the scratch tree, or the failure's sub-code and index. -/
def loadTree (shape : List Bool) (alphabet : List Byte) : Except (Nat × Nat) Walk :=
  match loadWalk alphabet shape Walk.start with
  | .error e => .error e
  | .ok w =>
    match w.t[0]? with
    | some (Scratch.leaf _) => .error (4, 0)
    | _ =>
      if w.k < shape.length then .error (5, w.k)
      else if w.a < alphabet.length then .error (6, w.a)
      else .ok w

/-- `end(m)`, the index just past the subtree rooted at m (R132), with a bound on the recursion's depth: each call goes to a
larger index, so the number of slots is enough. -/
def subtreeEnd (t : List Scratch) : Nat → Nat → Nat
  | 0, m => m
  | fuel + 1, m =>
    match t[m]? with
    | some .internal => subtreeEnd t fuel (subtreeEnd t fuel (m + 1))
    | _ => m + 1

/-- Slot j linked: `NODE[j] = Internal(j + 1, end(j + 1))` (R132). -/
def linkSlot (t : List Scratch) (x : Scratch × Nat) : Node :=
  match x.1 with
  | .leaf sym => .leaf sym
  | .internal => .internal (x.2 + 1) (subtreeEnd t t.length (x.2 + 1))

/-- The nodes of the scratch tree (R132). -/
def linkTree (t : List Scratch) : List Node := t.zipIdx.map (linkSlot t)

/-- What a failing TREE_LOAD leaves of the tree: none (R133). -/
def State.dropTree (s : State) : State :=
  { s with treeValid := false, nodeCount := 0, leafCount := 0, cursor := 0, nodes := [] }

/-- What a successful TREE_LOAD leaves (R131, R133). -/
def State.installTree (s : State) (w : Walk) : State :=
  { s with treeValid := true, nodeCount := w.k, leafCount := w.nleaf, cursor := 0, nodes := linkTree w.t }

/-- TREE_LOAD (R131, R133). -/
def execTreeLoad (s : State) : Result :=
  match loadTree s.blockBits s.inputBytes with
  | .error e => .next (s.dropTree.raise (Err.corruptTree e.1 e.2))
  | .ok w => .next (s.installTree w).complete

/-! ### The codeword table -/

/-- CW_CLEAR (R135): every entry's length and bits to 0. -/
def execCwClear (s : State) : Result := .next { s with cwt := Memory.zeroed }.complete

/-- The parent of node k and the bit of the edge from it, found among the nodes from index j on: `k = l` gives 0, `k = r` gives
1, for `NODE[j] = Internal(l, r)` (R12, R136). -/
def parentFrom (k : Nat) : Nat → List Node → Option (Nat × Bool)
  | _, [] => none
  | j, .leaf _ :: rest => parentFrom k (j + 1) rest
  | j, .internal l r :: rest =>
    if l = k then some (j, false) else if r = k then some (j, true) else parentFrom k (j + 1) rest

/-- `path(k)`: the bits of the edges from the root to node k (R136), with a bound on its length. `none` where node k hangs
under no node, which no tree of R41 has. -/
def pathTo (nodes : List Node) : Nat → Nat → Option (List Bool)
  | _, 0 => some []
  | 0, _ + 1 => none
  | fuel + 1, k + 1 =>
    match parentFrom (k + 1) 0 nodes with
    | none => none
    | some (j, b) => (pathTo nodes fuel j).map (· ++ [b])

/-- The loop of CW_DERIVE over the nodes from index k on, in increasing order (R136). -/
def deriveFrom (nodes : List Node) : Nat → List Node → Memory → Option Memory
  | _, [], m => some m
  | k, .leaf s :: rest, m =>
    match pathTo nodes nodes.length k with
    | none => none
    | some p => deriveFrom nodes (k + 1) rest (m.setCodeword s p)
  | k, .internal _ _ :: rest, m => deriveFrom nodes (k + 1) rest m

/-- CW_DERIVE (R136). -/
def execCwDerive (s : State) : Result :=
  if s.treeValid then
    match deriveFrom (s.nodes.take s.nodeCount) 0 (s.nodes.take s.nodeCount) Memory.zeroed with
    | none => .fault .brokenTree
    | some m => .next { s with cwt := m }.complete
  else .next (s.raise Err.noTree)

end Sys2Proof.Machine
end

