-- ==== Sys2Proof/Machine/Encoder.lean ====
section
/-! DEFINITION. The block encoder (43_encoder.md): ENC_BLOCK. -/

namespace Sys2Proof.Machine

/-- The loop of ENC_BLOCK over the input bytes from index j on (R150). On a failure the bits of the bytes before stay in the
buffer (R151). -/
def encodeFrom : Nat → List Byte → State → State × Option Err
  | _, [], s => (s, none)
  | j, sym :: rest, s =>
    if s.cwt.cwLen sym = 0 then (s, some (Err.noCodeword j sym))
    else if s.bbufLen + s.cwt.cwLen sym > s.cfg.bbufCap then (s, some (Err.encodeCapacity j sym))
    else encodeFrom (j + 1) rest (s.appendBits (s.cwt.codeword sym))

/-- ENC_BLOCK (R150, R151). -/
def execEncBlock (s : State) : Result :=
  match encodeFrom 0 s.inputBytes s.clearBbuf with
  | (t, none) => .next t.complete
  | (t, some e) => .next (t.raise e)

end Sys2Proof.Machine
end

