-- ==== Sys2Proof/Machine/Decoder.lean ====
section
/-! DEFINITION. The block decoder (44_decoder.md): DEC_BLOCK and DEC_RESET. -/

namespace Sys2Proof.Machine

/-- One decode step on a bit (R160). `none` where the cursor is on no internal node or its child on no node, which R48 rules
out. -/
def State.decodeBit (s : State) (b : Bool) : Option State :=
  match s.node s.cursor with
  | some (.internal l r) =>
    match s.node (if b then r else l) with
    | some (.leaf sym) =>
      some { s with obuf := s.obuf.setByte s.outLen sym, outLen := s.outLen + 1, cursor := 0 }
    | some (.internal _ _) => some { s with cursor := if b then r else l }
    | none => none
  | _ => none

/-- The decode steps on a sequence of bits, in order (R161). -/
def State.decodeBits (s : State) : List Bool → Option State
  | [] => some s
  | b :: rest =>
    match s.decodeBit b with
    | none => none
    | some t => t.decodeBits rest

/-- DEC_BLOCK (R161). -/
def execDecBlock (s : State) : Result :=
  if s.treeValid then
    match { s with outLen := 0 }.decodeBits s.blockBits with
    | none => .fault .brokenTree
    | some t => .next t.complete
  else .next (s.raise Err.noTree)

/-- DEC_RESET (R163). -/
def execDecReset (s : State) : Result := .next { s with cursor := 0 }.complete

end Sys2Proof.Machine
end

