-- ==== Sys2Proof/Machine/Bus.lean ====
section
/-! DEFINITION. The host's bus accesses: the address map (R50, R52), which accesses have a meaning (R51, R196), and what a
read returns and a write does (R53 to R60). -/

namespace Sys2Proof.Machine

/-- What lies at an offset of the window (R52, R90). -/
inductive Loc where
  | id
  | cfg0
  | cfg1
  | ctrl
  | cmd
  | status
  | errInfo
  | result
  | bbufLen
  | inLen
  | outLen
  | decCursor
  | pkData
  | treeInfo
  /-- CW_LEN[s]. -/
  | cwLen (s : Nat)
  /-- CW_BITS<b>[s], b = 0..3. -/
  | cwBits (s b : Nat)
  /-- Node k of the NODE window. -/
  | node (k : Nat)
  /-- Word w of the BBUF window. -/
  | bbuf (w : Nat)
  /-- Word w of the IBUF window. -/
  | ibuf (w : Nat)
  /-- Word w of the OBUF window. -/
  | obuf (w : Nat)
  /-- A reserved offset (R55). -/
  | reserved
deriving DecidableEq, Repr

/-- The registers at offsets 0x00, 0x08, ... 0x68, in order (R52). -/
def registerMap : List Loc :=
  [.id, .cfg0, .cfg1, .ctrl, .cmd, .status, .errInfo, .result, .bbufLen, .inLen, .outLen, .decCursor, .pkData, .treeInfo]

/-- What lies at offset `8 * k` below the CWT window: a register, or a reserved offset (R52). -/
def registerAt (k : Nat) : Loc := (registerMap[k]?).getD .reserved

/-- What lies at doubleword `k` of codeword table entry `s` (R90). -/
def cwtAt (s k : Nat) : Loc :=
  if k = 0 then .cwLen s else if k ≤ 4 then .cwBits s (k - 1) else .reserved

/-- The address map (R52), for an offset that is a multiple of 8. -/
def locate (c : Config) (off : Nat) : Loc :=
  if off < 0x4000 then registerAt (off / 8)
  else if off < 0x8000 then cwtAt ((off - 0x4000) / 0x40) ((off - 0x4000) % 0x40 / 8)
  else if off < 0x8FF8 then .node ((off - 0x8000) / 8)
  else if off < 0x100000 then .reserved
  else if off < 0x200000 then
    if off < 0x100000 + 8 * c.bbufWords then .bbuf ((off - 0x100000) / 8) else .reserved
  else if off < 0x300000 then
    if off < 0x200000 + c.ibufSize then .ibuf ((off - 0x200000) / 8) else .reserved
  else if off < 0x400000 then
    if off < 0x300000 + c.obufSize then .obuf ((off - 0x300000) / 8) else .reserved
  else .reserved

/-- The offset of a location (R52, R90, 95_test_vectors.md section 3). -/
def Loc.offset : Loc → Option Nat
  | .id => some 0x000
  | .cfg0 => some 0x008
  | .cfg1 => some 0x010
  | .ctrl => some 0x018
  | .cmd => some 0x020
  | .status => some 0x028
  | .errInfo => some 0x030
  | .result => some 0x038
  | .bbufLen => some 0x040
  | .inLen => some 0x048
  | .outLen => some 0x050
  | .decCursor => some 0x058
  | .pkData => some 0x060
  | .treeInfo => some 0x068
  | .cwLen s => some (0x4000 + 0x40 * s)
  | .cwBits s b => some (0x4008 + 0x40 * s + 8 * b)
  | .node k => some (0x8000 + 8 * k)
  | .bbuf w => some (0x100000 + 8 * w)
  | .ibuf w => some (0x200000 + 8 * w)
  | .obuf w => some (0x300000 + 8 * w)
  | .reserved => none

/-- The registers a host may read while a command is pending (R196, assumption 7). -/
def Loc.readableWhileBusy : Loc → Bool
  | .id | .cfg0 | .cfg1 | .ctrl | .status | .cmd => true
  | _ => false

/-- The registers a host may write while a command is pending (R196). -/
def Loc.writableWhileBusy : Loc → Bool
  | .ctrl | .status | .cmd => true
  | _ => false

/-- A host read of node k (R54); `none` is "any value". -/
def State.readNode (s : State) (k : Nat) : Option Word :=
  if s.treeValid then
    if k < s.nodeCount then s.nodes[k]?.map Node.word else some 0
  else none

/-- A host read of BBUF word w, masked at BBUF_LEN (R56). -/
def State.readBbuf (s : State) (w : Nat) : Word :=
  wordOfBits fun j => if 64 * w + j < s.bbufLen then s.bbuf.bit (64 * w + j) else false

/-- A host read of OBUF word w, masked at OUT_LEN byte by byte (R57). -/
def State.readObuf (s : State) (w : Nat) : Word :=
  wordOfBits fun j => if 8 * w + j / 8 < s.outLen then s.obuf.bit (64 * w + j) else false

/-- What a location holds for a host read with no command pending; `none` is "any value" (R23 to R28, R35 to R44, R53 to R57). -/
def State.readLoc (s : State) : Loc → Option Word
  | .id => some idWord
  | .cfg0 => some (cfg0Word s.cfg)
  | .cfg1 => some (cfg1Word s.cfg)
  | .ctrl => some (flagAt s.irqEn 0)
  | .cmd => some s.lastCmd
  | .status => some s.statusWord
  | .errInfo => some s.errInfoWord
  | .result => some s.result
  | .bbufLen => some (BitVec.ofNat 64 s.bbufLen)
  | .inLen => some (BitVec.ofNat 64 s.inLen)
  | .outLen => some (BitVec.ofNat 64 s.outLen)
  | .decCursor => some s.cursorWord
  | .pkData => some s.pkData
  | .treeInfo => some s.treeInfoWord
  | .cwLen e => some ((s.cwt.byte (64 * e)).setWidth 64)
  | .cwBits e b => some (s.cwt.word (8 * e + 1 + b))
  | .node k => s.readNode k
  | .bbuf w => some (s.readBbuf w)
  | .ibuf w => some (s.ibuf.word w)
  | .obuf w => some (s.readObuf w)
  | .reserved => some 0

/-- What a host read returns (R52, R196): while a command is pending, any value for all but six registers. -/
def State.busRead (s : State) (l : Loc) : Option Word :=
  if s.busy && !l.readableWhileBusy then none else s.readLoc l

/-- Gives the host the word a read returns: the location's, or a free value for "any value" (assumption 3). -/
def State.reply (s : State) : Option Word → State
  | some v => { s with replies := s.replies ++ [v] }
  | none => { s with replies := s.replies ++ [Config.freeWord s.draws], draws := s.draws + 1 }

/-- A host write of `v` to a location whose write has a meaning: RW, W1C and WARL registers and windows take it, all others
ignore it (R26 to R28, R37, R38, R44, R53 to R57, R101, R102). -/
def State.writeLoc (s : State) (v : Word) : Loc → State
  | .ctrl => { s with irqEn := v.getLsbD 0 }
  | .cmd => if s.busy then s.dropCommand else s.issue v
  | .status => s.ackStatus v
  | .bbufLen => if v.toNat ≤ s.cfg.bbufCap then { s with bbufLen := v.toNat } else s
  | .inLen => if v.toNat ≤ s.cfg.ibufSize then { s with inLen := v.toNat } else s
  | .pkData => { s with pkData := v }
  | .cwLen e => { s with cwt := s.cwt.setByte (64 * e) (v.extractLsb' 0 8) }
  | .cwBits e b => { s with cwt := s.cwt.setWord (8 * e + 1 + b) v }
  | .bbuf w => { s with bbuf := s.bbuf.setWord w v }
  | .ibuf w => { s with ibuf := s.ibuf.setWord w v }
  | .id => s
  | .cfg0 => s
  | .cfg1 => s
  | .errInfo => s
  | .result => s
  | .outLen => s
  | .decCursor => s
  | .treeInfo => s
  | .node _ => s
  | .obuf _ => s
  | .reserved => s

/-- The byte offset of a bus address in the block's window, where it lies in it (R50). -/
def offsetOf (c : Config) (addr : Nat) : Option Nat :=
  if c.base ≤ addr ∧ addr < c.base + Config.windowSize then some (addr - c.base) else none

/-- The one access shape: 8 bytes, 8-byte aligned (R51). -/
def accessOk (off width : Nat) : Bool := width == 8 && off % 8 == 0

/-- A host read (R50, R51, R60, R196). -/
def hostRead (addr width : Nat) (s : State) : Result :=
  match offsetOf s.cfg addr with
  | none => .fault .outsideWindow
  | some off =>
    if accessOk off width then .next (s.reply (s.busRead (locate s.cfg off))) else .refused .accessShape

/-- A host write (R50, R51, R60, R196). -/
def hostWrite (addr width : Nat) (v : Word) (s : State) : Result :=
  match offsetOf s.cfg addr with
  | none => .fault .outsideWindow
  | some off =>
    if accessOk off width then
      if s.busy && !(locate s.cfg off).writableWhileBusy then .refused .writeWhileBusy
      else .next (s.writeLoc v (locate s.cfg off))
    else .refused .accessShape

/-- One action of the host, already taken off its queue. A `wait` reaches this point only with BUSY = 0, and is then over
(R92). -/
def hostAct (a : HostAction) (s : State) : Result :=
  match a with
  | .read addr width => hostRead addr width s
  | .write addr width v => hostWrite addr width v s
  | .wait => .next s
  | .reset => .next s.resetInput

end Sys2Proof.Machine
end

