-- ==== Sys2Proof/Machine/Dispatch.lean ====
section
/-! DEFINITION. One arm per constructor of Instr: each calls its meaning. -/

namespace Sys2Proof.Machine

def exec (i : Instr) (s : State) : Host.Outcome State Fault Refusal :=
  match i with
  | .nop => Sys2Proof.Machine.execNop s
  | .treeLoad => Sys2Proof.Machine.execTreeLoad s
  | .cwClear => Sys2Proof.Machine.execCwClear s
  | .cwDerive => Sys2Proof.Machine.execCwDerive s
  | .encBlock => Sys2Proof.Machine.execEncBlock s
  | .decBlock => Sys2Proof.Machine.execDecBlock s
  | .decReset => Sys2Proof.Machine.execDecReset s
  | .pkClear => Sys2Proof.Machine.execPkClear s
  | .pkAppend nbits => Sys2Proof.Machine.execPkAppend nbits s
  | .pkGet index => Sys2Proof.Machine.execPkGet index s
  | .pkTruncate count => Sys2Proof.Machine.execPkTruncate count s

end Sys2Proof.Machine
end

