-- ==== Sys2Proof/Machine/Engine.lean ====
section
/-! DEFINITION. The engine's step (R104), the host's turn, and which of the two agents moves next (R6, R64, R108). -/

namespace Sys2Proof.Machine

/-- The engine step: LAST_CMD is decoded (R87) and its rule run; an illegal word fails (R104, R107). -/
def engineStep (s : State) : Result :=
  match decode s.lastCmd with
  | .ok i => exec i s
  | .error e => execIllegal e s

/-- Whether the engine moves next: a command is pending (R104), and its delay is over, or the host does nothing before BUSY
falls (it has no action waiting, or polls STATUS). -/
def engineTurn (s : State) : Bool :=
  s.busy &&
    (match s.hostQueue with
     | [] => true
     | .wait :: _ => true
     | _ => s.engineDelay == 0)

/-- The host's action `a` taken off the queue, whose rest is `rest`; a pending command has waited one action longer. -/
def State.popAction (s : State) (rest : List HostAction) : State :=
  { s with hostQueue := rest, engineDelay := if s.busy then s.engineDelay - 1 else s.engineDelay }

/-- The host's turn: its oldest waiting action (R64); with none the block is idle and keeps its state (R186). -/
def hostTurn (s : State) : Result :=
  match s.hostQueue with
  | [] => .next s
  | a :: rest => hostAct a (s.popAction rest)

end Sys2Proof.Machine
end

