-- ==== Sys2Proof/Machine/Step.lean ====
section
/-! DEFINITION. One step of the machine: the engine's step or the host's next action. -/

namespace Sys2Proof.Machine

/-- One step: one transition of one of the two agents (R6). -/
def step (s : State) : Host.Outcome State Fault Refusal :=
  if engineTurn s then engineStep s else hostTurn s

/-- `s` with the command word whose table bits are `w` pending and the engine due: exactly what an accepted CMD write of it
leaves (R101), with no host action before the engine's step. Assumption 6 says how commands come to run from reset. -/
def State.withFetchWord (s : State) (nbits w : Nat) : State := s.pend (tableWord nbits w) 0

end Sys2Proof.Machine
end

