-- ==== Sys2Proof/Machine/HostProgram.lean ====
section
/-! DEFINITION. Host programs (R92): the access-by-access syntax of 95_test_vectors.md and its expansion into host actions.
Not part of the hardware (D40). -/

namespace Sys2Proof.Machine

/-- One line of a host program (R92). -/
inductive Line where
  /-- `wr <loc>, <value>`. -/
  | wr (l : Loc) (v : Word)
  /-- `rd <loc>`. -/
  | rd (l : Loc)
  /-- `cmd <MNEMONIC>` with its operand. -/
  | cmd (i : Instr)
  /-- `wait`. -/
  | wait
  /-- `run <command>`: `cmd` then `wait`. -/
  | run (i : Instr)
deriving DecidableEq, Repr

/-- The bus address of a location: BASE plus its offset (R52). A reserved offset has no name in R92; it is given offset 0x070,
the first reserved one (assumption 18). -/
def Loc.address (c : Config) (l : Loc) : Nat := c.base + l.offset.getD 0x070

/-- The host actions of a line (R92). -/
def Line.expand (c : Config) : Line → List HostAction
  | .wr l v => [.write (l.address c) 8 v]
  | .rd l => [.read (l.address c) 8]
  | .cmd i => [.write (Loc.cmd.address c) 8 (encode i)]
  | .wait => [.wait]
  | .run i => [.write (Loc.cmd.address c) 8 (encode i), .wait]

/-- The host starts a program: its actions join the end of the queue, in program order (R64). -/
def State.startProgram (s : State) (p : List Line) : State :=
  { s with hostQueue := s.hostQueue ++ p.flatMap (Line.expand s.cfg) }

/-- The end of a run (R204): the host has performed its last access and BUSY = 0. -/
def State.ended (s : State) : Bool := s.hostQueue.isEmpty && !s.busy

end Sys2Proof.Machine
end

