-- ==== Sys2Proof/Safety.lean ====
section
/-! DEFINITION. The terms claims use: Huffman trees with their serialized form, arena, codewords and walk; a loaded tree; the
invariant of R48; a run of container operations (R129). -/

namespace Sys2Proof.Machine

/-! ### Trees -/

/-- A full binary tree over bytes: "every internal node has exactly two children", a leaf "carries exactly one byte value"
(R41). -/
inductive HTree where
  | leaf (sym : Byte)
  | node (left right : HTree)
deriving DecidableEq, Repr

/-- The number of nodes. -/
def HTree.size : HTree → Nat
  | .leaf _ => 1
  | .node l r => 1 + l.size + r.size

/-- The number of leaves. -/
def HTree.leaves : HTree → Nat
  | .leaf _ => 1
  | .node l r => l.leaves + r.leaves

/-- Whether the root is internal: a tree of at least two leaves. -/
def HTree.isNode : HTree → Bool
  | .leaf _ => false
  | .node _ _ => true

/-- The shape sequence: "each internal node emits bit 0 followed by its two children's serializations, and each leaf emits bit 1"
(R89, R134). -/
def HTree.shape : HTree → List Bool
  | .leaf _ => [true]
  | .node l r => false :: (l.shape ++ r.shape)

/-- The alphabet sequence: the leaf symbols in preorder (R89, R134). -/
def HTree.alphabet : HTree → List Byte
  | .leaf sym => [sym]
  | .node l r => l.alphabet ++ r.alphabet

/-- The nodes in preorder, the root at index `k` (R41, R132). -/
def HTree.arena : HTree → Nat → List Node
  | .leaf sym, _ => [.leaf sym]
  | .node l r, k => .internal (k + 1) (k + 1 + l.size) :: (l.arena (k + 1) ++ r.arena (k + 1 + l.size))

/-- The leaves in preorder, each with its path from the root: left edge 0, right edge 1 (R12, R136). -/
def HTree.paths : HTree → List (Byte × List Bool)
  | .leaf sym => [(sym, [])]
  | .node l r => l.paths.map (fun x => (x.1, false :: x.2)) ++ r.paths.map (fun x => (x.1, true :: x.2))

/-- The codeword CW_DERIVE keeps for a symbol: the path of the last leaf in preorder that carries it, or none (R136). -/
def HTree.codeword (t : HTree) (sym : Byte) : Option (List Bool) :=
  (t.paths.reverse.find? fun x => x.1 == sym).map Prod.snd

/-- The subtree whose root has preorder index `k`. -/
def HTree.sub : HTree → Nat → Option HTree
  | t, 0 => some t
  | .leaf _, _ + 1 => none
  | .node l r, k + 1 => if k < l.size then l.sub k else r.sub (k - l.size)

/-- The decoder's walk (R160, R161): from subtree `cur` of `root`, consume the bits, emit a symbol at every leaf reached and go
on from the root; the symbols emitted and the subtree the walk ends at. -/
def HTree.walk (root : HTree) : HTree → List Bool → List Byte × HTree
  | cur, [] => ([], cur)
  | .leaf _, _ :: rest => root.walk root rest
  | .node l r, b :: rest =>
    match (if b then r else l) with
    | .leaf sym => (sym :: (root.walk root rest).1, (root.walk root rest).2)
    | .node l' r' => root.walk (.node l' r') rest

/-! ### The invariant -/

/-- The state holds tree `t` as TREE_LOAD leaves it: TREE_VALID = 1, at least two and at most 256 leaves, the arena in preorder
(R41, R42, R132). -/
structure Holds (t : HTree) (s : State) : Prop where
  valid : s.treeValid = true
  isNode : t.isNode = true
  leaves : t.leaves ≤ 256
  nodes : s.nodes = t.arena 0
  nodeCount : s.nodeCount = t.size
  leafCount : s.leafCount = t.leaves

/-- `NODE[CURSOR]` is internal (R43, R48). -/
def State.cursorInternal (s : State) : Prop := ∃ l r, s.node s.cursor = some (.internal l r)

/-- The invariant of R48 with the constraints on the parameters (R9), the cleared error fields of a pending command (R101), and
the canonical form and extent of the RAMs. -/
structure Inv (s : State) : Prop where
  cfg : s.cfg.Ok
  bbufLen : s.bbufLen ≤ s.cfg.bbufCap
  inLen : s.inLen ≤ s.cfg.ibufSize
  outLen : s.outLen ≤ s.cfg.obufSize
  loaded : s.treeValid = true → (∃ t, Holds t s) ∧ s.cursorInternal
  empty : s.treeValid = false → s.cursor = 0 ∧ s.nodeCount = 0 ∧ s.leafCount = 0
  err : s.err = true ↔ s.errCode ≠ 0
  busy : s.busy = true → s.done = false
  pending : s.busy = true → s.err = false ∧ s.errSub = 0 ∧ s.errIndex = 0 ∧ s.errSym = 0
  cwt : s.cwt.wf ∧ s.cwt.Within 0x4000
  bbuf : s.bbuf.wf ∧ s.bbuf.Within (8 * s.cfg.bbufWords)
  ibuf : s.ibuf.wf ∧ s.ibuf.Within s.cfg.ibufSize
  obuf : s.obuf.wf ∧ s.obuf.Within s.cfg.obufSize

/-! ### The host's accesses -/

/-- `s` with host action `a` the next of its queue. -/
def State.asks (s : State) (a : HostAction) : State := { s with hostQueue := a :: s.hostQueue }

/-- The host moves next in `s` when it has an action to perform: no command is pending, or the pending one waits longer. -/
def State.hostMoves (s : State) : Prop := s.busy = true → s.engineDelay ≠ 0

/-- What a host action that changes nothing leaves: a pending command has waited one action longer. -/
def State.waited (s : State) : State :=
  { s with engineDelay := if s.busy then s.engineDelay - 1 else s.engineDelay }

/-- A host read at offset `off` returns `v` and changes nothing of the block (R60). -/
def HostReads (s : State) (off : Nat) (v : Word) : Prop :=
  step (s.asks (.read (s.cfg.base + off) 8)) = .next { s.waited with replies := s.replies ++ [v] }

/-- A host read at offset `off` returns some word, a fresh free value: "any value" (R11), and changes nothing of the block. -/
def HostReadsAnyValue (s : State) (off : Nat) : Prop :=
  ∃ v, step (s.asks (.read (s.cfg.base + off) 8)) =
    .next { s.waited with replies := s.replies ++ [v], draws := s.draws + 1 }

/-- A host write of `v` at offset `off` leaves `t`. -/
def HostWrites (s : State) (off : Nat) (v : Word) (t : State) : Prop :=
  step (s.asks (.write (s.cfg.base + off) 8 v)) = .next t

/-- The reserved offsets of the window (R52, R90). -/
def ReservedOffset (c : Config) (off : Nat) : Prop :=
  (0x70 ≤ off ∧ off < 0x4000) ∨
  (0x4000 ≤ off ∧ off < 0x8000 ∧ 0x28 ≤ off % 0x40) ∨
  (0x8FF8 ≤ off ∧ off < 0x100000) ∨
  (0x100000 + 8 * c.bbufWords ≤ off ∧ off < 0x200000) ∨
  (0x200000 + c.ibufSize ≤ off ∧ off < 0x300000) ∨
  (0x300000 + c.obufSize ≤ off ∧ off < 0x400000)

/-- The offsets whose writes are ignored because what lies there is read-only (R52, R55). -/
def ReadOnlyOffset (c : Config) (off : Nat) : Prop :=
  off ∈ [0x00, 0x08, 0x10, 0x30, 0x38, 0x50, 0x58, 0x68] ∨
  (0x8000 ≤ off ∧ off < 0x8FF8) ∨
  (0x300000 ≤ off ∧ off < 0x300000 + c.obufSize)

/-! ### Errors (R170) -/

/-- The codes and sub-codes a command may record (R170); 6/3 only for a PK_APPEND with NBITS over 64. -/
def errorsOf : Instr → List (Byte × Byte)
  | .nop => []
  | .treeLoad => [(2, 1), (2, 2), (2, 3), (2, 4), (2, 5), (2, 6)]
  | .cwClear => []
  | .cwDerive => [(3, 0)]
  | .encBlock => [(4, 0), (5, 1)]
  | .decBlock => [(3, 0)]
  | .decReset => []
  | .pkClear => []
  | .pkAppend nbits => if nbits.toNat ≤ 64 then [(5, 2)] else [(6, 3)]
  | .pkGet _ => [(1, 1)]
  | .pkTruncate _ => [(1, 2)]

/-! ### Runs of container operations (R129) -/

/-- One operation of the source's container property: append one bit, or truncate. -/
inductive ContainerOp where
  | append (b : Bool)
  | truncate (n : Count32)
deriving DecidableEq, Repr

/-- The operation on a list of bits. -/
def ContainerOp.onList (bits : List Bool) : ContainerOp → List Bool
  | .append b => bits ++ [b]
  | .truncate n => bits.take (bits.length - n.toNat)

/-- The bits a sequence of operations leaves, from the bits before. -/
def ContainerOp.runList (bits : List Bool) : List ContainerOp → List Bool
  | [] => bits
  | op :: rest => ContainerOp.runList (op.onList bits) rest

/-- Every operation of the sequence fits: no append beyond `cap` bits, no truncation of more bits than there are. -/
def ContainerOp.fits (cap : Nat) (bits : List Bool) : List ContainerOp → Prop
  | [] => True
  | .append b :: rest => bits.length < cap ∧ ContainerOp.fits cap (bits ++ [b]) rest
  | .truncate n :: rest => n.toNat ≤ bits.length ∧ ContainerOp.fits cap (bits.take (bits.length - n.toNat)) rest

/-- The operation on the machine: PK_APPEND 1 with the bit staged in PK_DATA, or PK_TRUNCATE. -/
def ContainerOp.onMachine (s : State) : ContainerOp → Result
  | .append b => exec (.pkAppend 1) { s with pkData := (BitVec.ofBool b).setWidth 64 }
  | .truncate n => exec (.pkTruncate n) s

/-- A sequence of operations on the machine, stopping where one gives no next state. -/
def ContainerOp.runMachine (s : State) : List ContainerOp → Result
  | [] => .next s
  | op :: rest =>
    match op.onMachine s with
    | .next t => ContainerOp.runMachine t rest
    | .fault f => .fault f
    | .refused r => .refused r

end Sys2Proof.Machine
end

