-- ==== Sys2Proof/Certificates/Slice0/Obligations.lean ====
section
/-! DEFINITION. The statements for the provers. "The command completes" is written as an equation `exec i s = .next t`; a frame as
`t = { s with <the fields that may change> }`, so that every field not named is unchanged. -/

open Sys2Proof Sys2Proof.Machine

/-! ## Encoding (30_encoding.md) -/

/-- R82 to R86: decoding the word of a well-formed command gives the command back, at every value of its operand. -/
def Obligations.DecodeInvertsEncode : Prop :=
  ∀ i : Instr, i.wellFormed = true → decode (encode i) = .ok i

/-- R82 to R87: a word that decodes has one meaning, is a well-formed command's, and is that command's encoding. -/
def Obligations.EncodeInvertsDecode : Prop :=
  ∀ (c : Word) (i : Instr), decode c = .ok i → i.wellFormed = true ∧ encode i = c

/-- R86: a word is a command of a row exactly when its masked bits are the row's match (and, for PK_APPEND, NBITS is at most
64). -/
def Obligations.WordSelectsItsTableRow : Prop :=
  (∀ (c : Word) (i : Instr), decode c = .ok i → c &&& i.maskWord = i.matchWord) ∧
  ∀ (c : Word) (i : Instr), c &&& i.maskWord = i.matchWord →
    (i.matchWord = 0x41#64 → (c.extractLsb' 8 7).toNat ≤ 64) →
    ∃ j, decode c = .ok j ∧ j.matchWord = i.matchWord ∧ j.maskWord = i.maskWord

/-- R87: the engine's checks of the command word, in order, each with its error, and the command run when none fails. -/
def Obligations.EngineChecksWordInOrder : Prop :=
  ∀ s : State,
    let c := s.lastCmd
    let op := c.extractLsb' 0 8
    (op ∉ [0x00#8, 0x10#8, 0x11#8, 0x12#8, 0x20#8, 0x30#8, 0x31#8, 0x40#8, 0x41#8, 0x42#8, 0x43#8] →
      engineStep s = .next (s.raise ⟨6, 1, 0, op⟩)) ∧
    (op ∈ [0x00#8, 0x10#8, 0x11#8, 0x12#8, 0x20#8, 0x30#8, 0x31#8, 0x40#8] → c.extractLsb' 8 56 ≠ 0 →
      engineStep s = .next (s.raise ⟨6, 2, 0, op⟩)) ∧
    (op = 0x41#8 → c.extractLsb' 15 49 ≠ 0 → engineStep s = .next (s.raise ⟨6, 2, 0, op⟩)) ∧
    (op ∈ [0x42#8, 0x43#8] → c.extractLsb' 8 24 ≠ 0 → engineStep s = .next (s.raise ⟨6, 2, 0, op⟩)) ∧
    (op = 0x41#8 → c.extractLsb' 15 49 = 0 → (c.extractLsb' 8 7).toNat > 64 →
      engineStep s = .next (s.raise ⟨6, 3, (c.extractLsb' 8 7).setWidth 32, op⟩)) ∧
    (∀ p ∈ [(0x00#8, Instr.nop), (0x10#8, .treeLoad), (0x11#8, .cwClear), (0x12#8, .cwDerive), (0x20#8, .encBlock),
        (0x30#8, .decBlock), (0x31#8, .decReset), (0x40#8, .pkClear)],
      op = p.1 → c.extractLsb' 8 56 = 0 → engineStep s = exec p.2 s) ∧
    (op = 0x41#8 → c.extractLsb' 15 49 = 0 → (c.extractLsb' 8 7).toNat ≤ 64 →
      engineStep s = exec (.pkAppend (c.extractLsb' 8 7)) s) ∧
    (op = 0x42#8 → c.extractLsb' 8 24 = 0 → engineStep s = exec (.pkGet (c.extractLsb' 32 32)) s) ∧
    (op = 0x43#8 → c.extractLsb' 8 24 = 0 → engineStep s = exec (.pkTruncate (c.extractLsb' 32 32)) s)

/-- R107, R88: at the engine's turn an illegal word ends the command with ILLEGAL_CMD: sub-code 1 for an opcode not in the map, 2
for a set bit above the opcode of a listed one, 3 with NBITS for a PK_APPEND of more than 64 bits. Only the completion fields
change. -/
def Obligations.IllegalWordChangesOnlyCompletion : Prop :=
  ∀ (s : State) (e : DecodeError), engineTurn s = true → decode s.lastCmd = .error e →
    let op := s.lastCmd.extractLsb' 0 8
    let ops := [0x00#8, 0x10#8, 0x11#8, 0x12#8, 0x20#8, 0x30#8, 0x31#8, 0x40#8, 0x41#8, 0x42#8, 0x43#8]
    ∃ sub index, step s = .next { s with
        busy := false, done := true, err := true, errCode := 6, errSub := sub, errIndex := index, errSym := op } ∧
      ((sub = 1 ∧ index = 0 ∧ op ∉ ops) ∨ (sub = 2 ∧ index = 0 ∧ op ∈ ops ∧ s.lastCmd.extractLsb' 8 56 ≠ 0) ∨
        (sub = 3 ∧ index = (s.lastCmd.extractLsb' 8 7).setWidth 32 ∧ op = 0x41 ∧ 64 < (s.lastCmd.extractLsb' 8 7).toNat))

/-- Words written out from R82 to R86 and R92 decode to the commands they stand for, and the words of vectors V3 to V8 to none. -/
def Obligations.SpecWordsDecode : Prop :=
  decode 0x0000000000000000#64 = .ok .nop ∧
  decode 0x0000000000000010#64 = .ok .treeLoad ∧
  decode 0x0000000000000011#64 = .ok .cwClear ∧
  decode 0x0000000000000012#64 = .ok .cwDerive ∧
  decode 0x0000000000000020#64 = .ok .encBlock ∧
  decode 0x0000000000000030#64 = .ok .decBlock ∧
  decode 0x0000000000000031#64 = .ok .decReset ∧
  decode 0x0000000000000040#64 = .ok .pkClear ∧
  decode 0x0000000000000341#64 = .ok (.pkAppend 3) ∧
  decode 0x0000000200000042#64 = .ok (.pkGet 2) ∧
  decode 0x0000000600000043#64 = .ok (.pkTruncate 6) ∧
  decode 0x0000000000000001#64 = .error (.unknownOpcode 0x01) ∧
  decode 0x00000000000000FF#64 = .error (.unknownOpcode 0xFF) ∧
  decode 0x0000000000000100#64 = .error (.reservedBits 0x00) ∧
  decode 0x0000000000008041#64 = .error (.reservedBits 0x41) ∧
  decode 0x0000000000000142#64 = .error (.reservedBits 0x42) ∧
  decode 0x0000000000004141#64 = .error (.nbitsRange 65 0x41)

/-! ## The two agents and the life of a command (00_scope.md, 40_control.md) -/

/-- R104: the engine's step is enabled only while BUSY = 1; at its turn it runs the command LAST_CMD decodes to, and nothing
else happens in that step; at any other turn the host moves. The engine is due when the pending command's delay is over, or the
host has no action or waits. -/
def Obligations.StepRunsDecodedCommand : Prop :=
  (∀ (s : State) (i : Instr), engineTurn s = true → decode s.lastCmd = .ok i → step s = exec i s) ∧
  (∀ s : State, s.busy = false → engineTurn s = false) ∧
  (∀ s : State, engineTurn s = false → step s = hostTurn s) ∧
  (∀ s : State, s.busy = true →
    (s.engineDelay = 0 ∨ s.hostQueue = [] ∨ s.hostQueue.head? = some .wait) → engineTurn s = true) ∧
  ∀ (s : State) (nbits w : Nat) (i : Instr), decodeTableWord nbits w = some i →
    step (s.withFetchWord nbits w) = exec i (s.withFetchWord nbits w)

/-- R101: a CMD write while BUSY = 0 makes the command pending and clears DONE and the error fields; nothing else of the block
changes. How long the command will wait is a free value: some number of host actions (model's own, assumption 5). -/
def Obligations.CommandWriteIssues : Prop :=
  ∀ (s : State) (c : Word), s.busy = false →
    ∃ delay, HostWrites s 0x20 c { s with
      lastCmd := c, done := false, err := false, errCode := 0, errSub := 0, errIndex := 0, errSym := 0, busy := true,
      engineDelay := delay, draws := s.draws + 1 }

/-- R102: a CMD write while BUSY = 1 sets OVERRUN and changes nothing else of the block; the pending command has waited one host
action longer (the delay is the model's own, assumption 5). -/
def Obligations.CommandWriteWhileBusyIsDropped : Prop :=
  ∀ (s : State) (c : Word), s.busy = true → s.engineDelay ≠ 0 →
    HostWrites s 0x20 c { s with overrun := true, engineDelay := s.engineDelay - 1 }

/-- R103, R170, R171: a command that ends has BUSY = 0 and DONE = 1; it either left the error fields as they were or recorded one
of the errors R170 lists for it, with the symbol field 0 but for ENC_BLOCK's. -/
def Obligations.CompletionRecordsListedError : Prop :=
  ∀ (i : Instr) (s t : State), exec i s = .next t →
    t.busy = false ∧ t.done = true ∧
    ((t.err = s.err ∧ t.errCode = s.errCode ∧ t.errSub = s.errSub ∧ t.errIndex = s.errIndex ∧ t.errSym = s.errSym) ∨
      (t.err = true ∧ (t.errCode, t.errSub) ∈ errorsOf i ∧
        (t.errSym = 0 ∨ i = .encBlock ∨ (t.errCode = 6 ∧ t.errSym = 0x41))))

/-- R105: a command that raises changes only the completion fields, but for ENC_BLOCK (the bit buffer, R151) and TREE_LOAD (the
tree, R133). -/
def Obligations.FailedCommandChangesOnlyCompletion : Prop :=
  ∀ (i : Instr) (s t : State), s.err = false → exec i s = .next t → t.err = true →
    t = { s with
      busy := false, done := true, err := true
      errCode := t.errCode, errSub := t.errSub, errIndex := t.errIndex, errSym := t.errSym
      bbuf := if i = .encBlock then t.bbuf else s.bbuf
      bbufLen := if i = .encBlock then t.bbufLen else s.bbufLen
      treeValid := if i = .treeLoad then false else s.treeValid
      nodeCount := if i = .treeLoad then 0 else s.nodeCount
      leafCount := if i = .treeLoad then 0 else s.leafCount
      cursor := if i = .treeLoad then 0 else s.cursor
      nodes := if i = .treeLoad then t.nodes else s.nodes }

/-- R108: in every state of the invariant with a command pending, the engine's step gives a next state, in which the command has
completed: no command stops or fails to end. -/
def Obligations.PendingCommandCompletes : Prop :=
  ∀ s : State, Inv s → s.busy = true → ∃ t, engineStep s = .next t ∧ t.busy = false ∧ t.done = true

/-- R108: while a command stays pending, each step of the host brings the engine's turn one action nearer and leaves the command
word alone, so the engine's step is taken after finitely many host actions. -/
def Obligations.EngineTurnComesNearer : Prop :=
  ∀ s t : State, s.busy = true → engineTurn s = false → step s = .next t → t.busy = true →
    t.engineDelay + 1 = s.engineDelay ∧ t.lastCmd = s.lastCmd

/-- R32, R36, R38, R39, R40, R42 to R44, R46, R47: the one or two commands that may write each element, for every command; CTRL,
LAST_CMD, OVERRUN and the parameters are written by none (R26, R27, R34). -/
def Obligations.OnlyNamedCommandsWrite : Prop :=
  ∀ (i : Instr) (s t : State), exec i s = .next t →
    t.cfg = s.cfg ∧ t.irqEn = s.irqEn ∧ t.lastCmd = s.lastCmd ∧ t.overrun = s.overrun ∧
    t.inLen = s.inLen ∧ t.ibuf = s.ibuf ∧ t.pkData = s.pkData ∧
    t.draws = s.draws ∧ t.engineDelay = s.engineDelay ∧ t.hostQueue = s.hostQueue ∧ t.replies = s.replies ∧
    ((∀ n, i ≠ .pkGet n) → t.result = s.result) ∧
    (i ≠ .treeLoad → t.treeValid = s.treeValid ∧ t.nodeCount = s.nodeCount ∧ t.leafCount = s.leafCount ∧
      t.nodes = s.nodes) ∧
    (i ≠ .treeLoad → i ≠ .decBlock → i ≠ .decReset → t.cursor = s.cursor) ∧
    (i ≠ .decBlock → t.outLen = s.outLen ∧ t.obuf = s.obuf) ∧
    (i ≠ .cwClear → i ≠ .cwDerive → t.cwt = s.cwt) ∧
    (i ≠ .encBlock → i ≠ .pkClear → (∀ n, i ≠ .pkAppend n) → (∀ n, i ≠ .pkTruncate n) →
      t.bbuf = s.bbuf ∧ t.bbufLen = s.bbufLen)

/-- R32: TREE_VALID changes only in an engine step of TREE_LOAD or by the reset input; R29: BUSY rises only by a CMD write and falls
only in an engine step or by the reset input. -/
def Obligations.TreeValidAndBusyWriters : Prop :=
  ∀ s t : State, step s = .next t →
    (t.treeValid ≠ s.treeValid →
      (engineTurn s = true ∧ decode s.lastCmd = .ok .treeLoad) ∨ s.hostQueue.head? = some .reset) ∧
    (s.busy = false → t.busy = true → ∃ v, s.hostQueue.head? = some (.write (s.cfg.base + 0x20) 8 v) ∧ t.lastCmd = v) ∧
    (s.busy = true → t.busy = false → engineTurn s = true ∨ s.hostQueue.head? = some .reset)

/-- R106, R163, R121, R135: NOP, DEC_RESET, PK_CLEAR and CW_CLEAR complete in every state. NOP changes nothing but the completion
fields; DEC_RESET also the cursor; PK_CLEAR the bit buffer, every word of it 0 and BBUF_LEN 0; CW_CLEAR the table, every length
and code bit 0. -/
def Obligations.ControlAndClearCommandsComplete : Prop :=
  ∀ s : State,
    exec .nop s = .next { s with busy := false, done := true } ∧
    exec .decReset s = .next { s with busy := false, done := true, cursor := 0 } ∧
    (∃ t, exec .pkClear s = .next t ∧
      t = { s with busy := false, done := true, bbuf := t.bbuf, bbufLen := 0 } ∧ (∀ w, t.bbuf.word w = 0)) ∧
    (∃ t, exec .cwClear s = .next t ∧
      t = { s with busy := false, done := true, cwt := t.cwt } ∧
      ∀ sym : Byte, t.cwt.cwLen sym = 0 ∧ ∀ k < 256, t.cwt.cwBit sym k = false)

/-! ## The bit packer (41_packer.md) -/

/-- R123: PK_APPEND n appends the low n bits of PK_DATA, bit 0 first, at BBUF_LEN, where they fit, and leaves every other bit and
every byte outside them alone; where they do not fit it fails with CAPACITY sub 2 and appends nothing. -/
def Obligations.PkAppendAppendsLowBits : Prop :=
  ∀ (s : State) (n : BitVec 7), n.toNat ≤ 64 →
    encode (.pkAppend n) = (n.setWidth 64 <<< 8) ||| 0x41#64 ∧
    (s.bbufLen + n.toNat ≤ s.cfg.bbufCap →
      ∃ t, exec (.pkAppend n) s = .next t ∧
        t = { s with busy := false, done := true, bbuf := t.bbuf, bbufLen := s.bbufLen + n.toNat } ∧
        (∀ j < n.toNat, t.bbuf.bit (s.bbufLen + j) = s.pkData.getLsbD j) ∧
        (∀ k, k < s.bbufLen ∨ s.bbufLen + n.toNat ≤ k → t.bbuf.bit k = s.bbuf.bit k) ∧
        (∀ a, 8 * a + 8 ≤ s.bbufLen ∨ s.bbufLen + n.toNat ≤ 8 * a → t.bbuf.byte a = s.bbuf.byte a)) ∧
    (s.bbufLen + n.toNat > s.cfg.bbufCap →
      exec (.pkAppend n) s = .next { s with
        busy := false, done := true, err := true, errCode := 5, errSub := 2
        errIndex := BitVec.ofNat 32 s.bbufLen, errSym := 0 })

/-- R125: PK_GET i puts bit i of the buffer, zero-extended, in RESULT where i is below BBUF_LEN, and fails with OUT_OF_RANGE sub 1
otherwise, RESULT unchanged. -/
def Obligations.PkGetReadsOneBit : Prop :=
  ∀ (s : State) (i : Count32),
    encode (.pkGet i) = (i.setWidth 64 <<< 32) ||| 0x42#64 ∧
    (i.toNat < s.bbufLen → exec (.pkGet i) s = .next { s with
      busy := false, done := true, result := if s.bbuf.bit i.toNat then 1 else 0 }) ∧
    (s.bbufLen ≤ i.toNat → exec (.pkGet i) s = .next { s with
      busy := false, done := true, err := true, errCode := 1, errSub := 1, errIndex := i, errSym := 0 })

/-- R127: PK_TRUNCATE n zeroes the last n bits and takes them off where there are that many, leaving every other bit and every byte
outside them alone, and fails with OUT_OF_RANGE sub 2 otherwise, nothing removed. -/
def Obligations.PkTruncateRemovesLastBits : Prop :=
  ∀ (s : State) (n : Count32),
    encode (.pkTruncate n) = (n.setWidth 64 <<< 32) ||| 0x43#64 ∧
    (n.toNat ≤ s.bbufLen →
      ∃ t, exec (.pkTruncate n) s = .next t ∧
        t = { s with busy := false, done := true, bbuf := t.bbuf, bbufLen := s.bbufLen - n.toNat } ∧
        (∀ k, s.bbufLen - n.toNat ≤ k → k < s.bbufLen → t.bbuf.bit k = false) ∧
        (∀ k, k < s.bbufLen - n.toNat ∨ s.bbufLen ≤ k → t.bbuf.bit k = s.bbuf.bit k) ∧
        (∀ a, 8 * a + 8 ≤ s.bbufLen - n.toNat ∨ s.bbufLen ≤ 8 * a → t.bbuf.byte a = s.bbuf.byte a)) ∧
    (s.bbufLen < n.toNat →
      exec (.pkTruncate n) s = .next { s with
        busy := false, done := true, err := true, errCode := 1, errSub := 2, errIndex := n, errSym := 0 })

/-- R129, the container property: from an empty buffer, every sequence of one-bit appends and truncations that fit succeeds; the
buffer is then the list the operations leave, BBUF_LEN its length, and PK_GET i returns its bit i. -/
def Obligations.ContainerKeepsItsBits : Prop :=
  ∀ (s : State) (ops : List ContainerOp), s.bbufLen = 0 → ContainerOp.fits s.cfg.bbufCap [] ops →
    ∃ t, ContainerOp.runMachine s ops = .next t ∧ t.err = s.err ∧
      t.bbufLen = (ContainerOp.runList [] ops).length ∧
      ∀ (i : Count32) (b : Bool), (ContainerOp.runList [] ops)[i.toNat]? = some b →
        exec (.pkGet i) t = .next { t with busy := false, done := true, result := (BitVec.ofBool b).setWidth 64 }

/-- 93_implementation_defined.md I2, 90_conflicts.md C4: no command reads a bit of the bit buffer at or beyond BBUF_LEN. Two buffers that agree below
BBUF_LEN give the same outcome of every command, but for the buffer itself, and still agree below the new BBUF_LEN. -/
def Obligations.PaddingBitsChangeNoResult : Prop :=
  ∀ (i : Instr) (s t : State) (m : Memory), (∀ k < s.bbufLen, m.bit k = s.bbuf.bit k) → exec i s = .next t →
    ∃ m', exec i { s with bbuf := m } = .next { t with bbuf := m' } ∧ ∀ k < t.bbufLen, m'.bit k = t.bbuf.bit k

/-! ## The tree loader and the codeword deriver (42_tree.md) -/

/-- R134, R131 to R133: TREE_LOAD of the serialized form of a tree with 2 to 256 leaves succeeds and the arena holds that tree in
preorder, with its counts and the cursor at the root; nothing else changes. -/
def Obligations.TreeLoadRebuildsSerializedTree : Prop :=
  ∀ (t : HTree) (s : State), 2 ≤ t.leaves → t.leaves ≤ 256 → s.blockBits = t.shape → s.inputBytes = t.alphabet →
    exec .treeLoad s = .next { s with
      busy := false, done := true
      treeValid := true, nodes := t.arena 0, nodeCount := t.size, leafCount := t.leaves, cursor := 0 }

/-- R131, R132: TREE_LOAD accepts nothing else: when it records no error, the shape and alphabet sequences are the serialized form of
one tree with 2 to 256 leaves, and that tree is loaded. -/
def Obligations.TreeLoadAcceptsOnlyTrees : Prop :=
  ∀ s u : State, s.err = false → exec .treeLoad s = .next u → u.err = false →
    ∃ t : HTree, 2 ≤ t.leaves ∧ t.leaves ≤ 256 ∧ s.blockBits = t.shape ∧ s.inputBytes = t.alphabet ∧ Holds t u ∧ u.cursor = 0

/-- R133: TREE_LOAD always ends, either with a tree loaded and the cursor at the root, or with CORRUPT_TREE, a sub-code of 1 to 6,
and the previous tree lost. BBUF, BBUF_LEN, IBUF, IN_LEN, CWT and everything else are unchanged either way. -/
def Obligations.TreeLoadSucceedsOrDropsTree : Prop :=
  ∀ s : State, ∃ u, exec .treeLoad s = .next u ∧
    u = { s with
      busy := false, done := true, treeValid := u.treeValid, nodes := u.nodes, nodeCount := u.nodeCount
      leafCount := u.leafCount, cursor := 0
      err := u.err, errCode := u.errCode, errSub := u.errSub, errIndex := u.errIndex, errSym := u.errSym } ∧
    ((u.treeValid = true ∧ (∃ t, Holds t u) ∧
        u.err = s.err ∧ u.errCode = s.errCode ∧ u.errSub = s.errSub ∧ u.errIndex = s.errIndex ∧ u.errSym = s.errSym) ∨
      (u.treeValid = false ∧ u.nodeCount = 0 ∧ u.leafCount = 0 ∧
        u.err = true ∧ u.errCode = 2 ∧ u.errSub ∈ [1, 2, 3, 4, 5, 6] ∧ u.errSym = 0))

/-- R131, R173: where the shape begins with a whole tree of at most 256 leaves and the alphabet has its bytes, the checks after the
walk come in order: ROOT_LEAF, TRAILING_SHAPE at the first unused shape bit, TRAILING_ALPHA at the first unused byte. -/
def Obligations.ClosedTreeChecksInOrder : Prop :=
  ∀ (t : HTree) (s : State) (bits : List Bool) (bytes : List Byte),
    t.leaves ≤ 256 → s.blockBits = t.shape ++ bits → s.inputBytes = t.alphabet ++ bytes →
    (t.isNode = false → exec .treeLoad s = .next (s.dropTree.raise ⟨2, 4, 0, 0⟩)) ∧
    (t.isNode = true → bits ≠ [] →
      exec .treeLoad s = .next (s.dropTree.raise ⟨2, 5, BitVec.ofNat 32 t.size, 0⟩)) ∧
    (t.isNode = true → bits = [] → bytes ≠ [] →
      exec .treeLoad s = .next (s.dropTree.raise ⟨2, 6, BitVec.ofNat 32 t.leaves, 0⟩))

/-- R131: the walk's own failures, whatever stands behind the bit they stop at. While the shape follows that of some tree: it ends
inside the tree, its leaves having their bytes: SHAPE_EXHAUSTED at BBUF_LEN. A leaf bit comes with every byte of the alphabet used:
ALPHA_EXHAUSTED at its index. An internal bit comes with 255 internal nodes read: TOO_MANY_NODES at its index. -/
def Obligations.OpenTreeFailures : Prop :=
  (∀ (t : HTree) (s : State) (post : List Bool), t.shape = s.blockBits ++ post → post ≠ [] →
    s.blockBits.count true ≤ s.inLen → s.blockBits.count false ≤ 255 →
    exec .treeLoad s = .next (s.dropTree.raise ⟨2, 1, BitVec.ofNat 32 s.bbufLen, 0⟩)) ∧
  (∀ (t : HTree) (s : State) (pre post bits : List Bool), t.shape = pre ++ true :: post → s.blockBits = pre ++ true :: bits →
    pre.count true = s.inLen → pre.count false ≤ 255 →
    exec .treeLoad s = .next (s.dropTree.raise ⟨2, 2, BitVec.ofNat 32 pre.length, 0⟩)) ∧
  (∀ (t : HTree) (s : State) (pre post bits : List Bool), t.shape = pre ++ false :: post → s.blockBits = pre ++ false :: bits →
    pre.count true ≤ s.inLen → pre.count false = 255 →
    exec .treeLoad s = .next (s.dropTree.raise ⟨2, 3, BitVec.ofNat 32 pre.length, 0⟩))

/-- R42: with a tree loaded NODE_COUNT = 2 * LEAF_COUNT - 1, LEAF_COUNT is 2 to 256 and every path has 1 to 255 edges (R8). -/
def Obligations.TreeCountsAndDepth : Prop :=
  ∀ (t : HTree) (s : State), Holds t s →
    s.nodeCount = 2 * s.leafCount - 1 ∧ 2 ≤ s.leafCount ∧ s.leafCount ≤ 256 ∧ s.nodeCount ≤ 511 ∧
    s.nodes.length = s.nodeCount ∧ ∀ x ∈ t.paths, 1 ≤ x.2.length ∧ x.2.length ≤ 255

/-- R136: with a tree loaded CW_DERIVE completes and writes the table alone: each symbol's entry is the path of the last leaf in
preorder that carries it, and has length 0 where none does; the bits no path of the symbol reaches are 0. With TREE_VALID = 0 it
fails with NO_TREE and writes nothing. -/
def Obligations.CwDeriveRecordsPaths : Prop :=
  (∀ (t : HTree) (s : State), Holds t s →
    ∃ u, exec .cwDerive s = .next u ∧ u = { s with busy := false, done := true, cwt := u.cwt } ∧
      ∀ sym : Byte,
        (t.codeword sym = none → u.cwt.cwLen sym = 0) ∧
        (∀ p, t.codeword sym = some p →
          u.cwt.cwLen sym = p.length ∧ ∀ (k : Nat) (b : Bool), p[k]? = some b → u.cwt.cwBit sym k = b) ∧
        ∀ k < 256, (∀ x ∈ t.paths, x.1 = sym → x.2.length ≤ k) → u.cwt.cwBit sym k = false) ∧
  ∀ s : State, s.treeValid = false →
    exec .cwDerive s = .next { s with
      busy := false, done := true, err := true, errCode := 3, errSub := 0, errIndex := 0, errSym := 0 }

/-- R137: after a successful CW_DERIVE no codeword is a prefix of another, every symbol that labels a leaf has a codeword of length
at least 1, and decoding a symbol's codeword from the root emits that symbol alone and ends at the root. -/
def Obligations.DerivedTableIsPrefixFree : Prop :=
  ∀ (t : HTree) (s u : State), Holds t s → exec .cwDerive s = .next u →
    (∀ a b : Byte, a ≠ b → u.cwt.cwLen a ≠ 0 → u.cwt.cwLen b ≠ 0 → ¬ u.cwt.codeword a <+: u.cwt.codeword b) ∧
    (∀ a ∈ t.alphabet, 1 ≤ u.cwt.cwLen a) ∧
    ∀ a : Byte, u.cwt.cwLen a ≠ 0 → t.walk t (u.cwt.codeword a) = ([a], t)

/-! ## The block encoder (43_encoder.md) -/

/-- R150, R152: where every input byte has a codeword and they fit together, ENC_BLOCK completes; the bit buffer holds exactly the
concatenation of the codewords in input order, every bit beyond is 0, and nothing else changes. -/
def Obligations.EncBlockConcatenatesCodewords : Prop :=
  ∀ s : State, (∀ sym ∈ s.inputBytes, s.cwt.cwLen sym ≠ 0) →
    (s.inputBytes.flatMap s.cwt.codeword).length ≤ s.cfg.bbufCap →
    ∃ t, exec .encBlock s = .next t ∧
      t = { s with busy := false, done := true, bbuf := t.bbuf, bbufLen := t.bbufLen } ∧
      t.blockBits = s.inputBytes.flatMap s.cwt.codeword ∧ ∀ k, t.bbufLen ≤ k → t.bbuf.bit k = false

/-- R150, R151: the first byte that fails decides: one with no codeword fails with NO_CODEWORD, one whose codeword does not fit with
CAPACITY sub 1, NO_CODEWORD checked first; the bytes before it stay encoded and every other bit of the buffer is 0. -/
def Obligations.EncBlockStopsAtFirstFailingByte : Prop :=
  ∀ (s : State) (pre post : List Byte) (sym : Byte), s.inputBytes = pre ++ sym :: post →
    (∀ x ∈ pre, s.cwt.cwLen x ≠ 0) → (pre.flatMap s.cwt.codeword).length ≤ s.cfg.bbufCap →
    (s.cwt.cwLen sym = 0 ∨ (pre.flatMap s.cwt.codeword).length + s.cwt.cwLen sym > s.cfg.bbufCap) →
    ∃ t, exec .encBlock s = .next t ∧
      t = { s with
        busy := false, done := true, bbuf := t.bbuf, bbufLen := t.bbufLen
        err := true, errCode := if s.cwt.cwLen sym = 0 then 4 else 5
        errSub := if s.cwt.cwLen sym = 0 then 0 else 1
        errIndex := BitVec.ofNat 32 pre.length, errSym := sym } ∧
      t.blockBits = pre.flatMap s.cwt.codeword ∧ ∀ k, t.bbufLen ≤ k → t.bbuf.bit k = false

/-- R150: ENC_BLOCK always ends, and its result depends only on IBUF[0..IN_LEN-1], CWT and BBUF_CAP, never on the tree, on what the
buffers held or on an earlier ENC_BLOCK. -/
def Obligations.EncBlockIsStateless : Prop :=
  ∀ s u : State, s.inputBytes = u.inputBytes → s.cwt = u.cwt → s.cfg.bbufCap = u.cfg.bbufCap → s.err = u.err →
    ∃ s' u', exec .encBlock s = .next s' ∧ exec .encBlock u = .next u' ∧
      s'.bbuf = u'.bbuf ∧ s'.bbufLen = u'.bbufLen ∧ s'.err = u'.err ∧
      (s'.err = true → s.err = false →
        s'.errCode = u'.errCode ∧ s'.errSub = u'.errSub ∧ s'.errIndex = u'.errIndex ∧ s'.errSym = u'.errSym)

/-! ## The block decoder (44_decoder.md) -/

/-- R160, R161: with tree t loaded and the cursor at an internal node, DEC_BLOCK completes: it emits exactly the symbols the walk of
the whole bit buffer from the cursor meets, from OBUF index 0, and leaves the cursor where the walk ends; nothing else changes. With
TREE_VALID = 0 it fails with NO_TREE, nothing written. -/
def Obligations.DecBlockWalksTree : Prop :=
  (∀ (t cur : HTree) (s : State), Holds t s → t.sub s.cursor = some cur → cur.isNode = true →
    ∃ u, exec .decBlock s = .next u ∧
      u = { s with busy := false, done := true, obuf := u.obuf, outLen := u.outLen, cursor := u.cursor } ∧
      u.outputBytes = (t.walk cur s.blockBits).1 ∧
      t.sub u.cursor = some (t.walk cur s.blockBits).2 ∧ (t.walk cur s.blockBits).2.isNode = true ∧
      u.outLen ≤ s.bbufLen ∧ ∀ a, u.outLen ≤ a → u.obuf.byte a = s.obuf.byte a) ∧
  ∀ s : State, s.treeValid = false →
    exec .decBlock s = .next { s with
      busy := false, done := true, err := true, errCode := 3, errSub := 0, errIndex := 0, errSym := 0 }

/-- R162: block boundaries need not be codeword boundaries. Decoding S1 and then S2 leaves the cursor that decoding S1 ++ S2 leaves,
and the two outputs joined are its output. -/
def Obligations.BlockBoundariesDoNotMatter : Prop :=
  ∀ (s s1 s2 u : State) (m1 m2 m : Memory) (n1 n2 : Nat),
    m.bits 0 (n1 + n2) = m1.bits 0 n1 ++ m2.bits 0 n2 →
    exec .decBlock { s with bbuf := m1, bbufLen := n1 } = .next s1 → s.treeValid = true →
    exec .decBlock { s1 with bbuf := m2, bbufLen := n2 } = .next s2 →
    exec .decBlock { s with bbuf := m, bbufLen := n1 + n2 } = .next u →
    u.cursor = s2.cursor ∧ u.outputBytes = s1.outputBytes ++ s2.outputBytes

/-- R164: with tree t loaded, the table derived from it and the cursor at the root, ENC_BLOCK of bytes that all label leaves and
whose codewords fit, then DEC_BLOCK, emits those bytes again and ends with the cursor at the root. -/
def Obligations.EncodeThenDecodeRoundTrip : Prop :=
  ∀ (t : HTree) (s d : State), Holds t s → exec .cwDerive s = .next d → d.cursor = 0 →
    (∀ sym ∈ d.inputBytes, sym ∈ t.alphabet) →
    (d.inputBytes.flatMap d.cwt.codeword).length ≤ d.cfg.bbufCap →
    ∃ e r, exec .encBlock d = .next e ∧ exec .decBlock e = .next r ∧
      r.outputBytes = d.inputBytes ∧ r.cursor = 0 ∧ e.err = d.err ∧ r.err = d.err

/-! ## Registers and windows (10_state.md, 20_memory.md) -/

/-- R23 to R27, R36 to R39, R44: what a host read of each plain register returns while no command is pending. -/
def Obligations.RegistersReadBack : Prop :=
  ∀ s : State, s.busy = false → s.cfg.Ok →
    HostReads s 0x00 0x0000000148424331#64 ∧
    (∃ v, HostReads s 0x08 v ∧ (v.extractLsb' 0 32).toNat = s.cfg.bbufWords ∧
      (v.extractLsb' 32 32).toNat = s.cfg.ibufSize) ∧
    (∃ v, HostReads s 0x10 v ∧ v.toNat = s.cfg.obufSize) ∧
    HostReads s 0x18 (if s.irqEn then 1 else 0) ∧
    HostReads s 0x20 s.lastCmd ∧
    HostReads s 0x38 s.result ∧
    HostReads s 0x40 (BitVec.ofNat 64 s.bbufLen) ∧
    HostReads s 0x48 (BitVec.ofNat 64 s.inLen) ∧
    HostReads s 0x50 (BitVec.ofNat 64 s.outLen) ∧
    HostReads s 0x60 s.pkData

/-- R28, R33: the fields of STATUS as a host reads them at any time, and the reserved fields 0. -/
def Obligations.StatusFieldsReadBack : Prop :=
  ∀ s : State, s.hostMoves →
    ∃ v, HostReads s 0x28 v ∧
      v.getLsbD 0 = s.busy ∧ v.getLsbD 1 = s.done ∧ v.getLsbD 2 = s.err ∧ v.getLsbD 3 = s.treeValid ∧
      (v.getLsbD 4 = true ↔ s.cursor = 0) ∧ v.getLsbD 5 = s.overrun ∧ v.extractLsb' 6 2 = 0 ∧
      v.extractLsb' 8 8 = s.errCode ∧ v.extractLsb' 16 8 = s.errSub ∧ v.extractLsb' 24 40 = 0

/-- R35, R42, R43: the fields of ERR_INFO, TREE_INFO and DEC_CURSOR, and their reserved fields 0, in states of the invariant. -/
def Obligations.InfoFieldsReadBack : Prop :=
  ∀ s : State, Inv s → s.busy = false →
    (∃ v, HostReads s 0x30 v ∧ v.extractLsb' 0 32 = s.errIndex ∧ v.extractLsb' 32 8 = s.errSym ∧
      v.extractLsb' 40 24 = 0) ∧
    (∃ v, HostReads s 0x68 v ∧ (v.extractLsb' 0 10).toNat = s.nodeCount ∧ (v.extractLsb' 16 9).toNat = s.leafCount ∧
      v.extractLsb' 10 6 = 0 ∧ v.extractLsb' 25 39 = 0) ∧
    (∃ v, HostReads s 0x58 v ∧ v.toNat = s.cursor ∧ s.cursor ≤ 510)

/-- R26, R28, R34: a write of CTRL sets IRQ_EN and nothing else; a write of STATUS clears DONE where bit 1 is set and OVERRUN where
bit 5 is set, and nothing else. Both at any time, a command pending or not (R196). -/
def Obligations.CtrlAndStatusWrites : Prop :=
  ∀ (s : State) (v : Word), s.hostMoves →
    HostWrites s 0x18 v { s.waited with irqEn := v.getLsbD 0 } ∧
    HostWrites s 0x28 v { s.waited with
      done := if v.getLsbD 1 then false else s.done
      overrun := if v.getLsbD 5 then false else s.overrun }

/-- R37, R38: BBUF_LEN and IN_LEN take a written value within their range and ignore any other; R44: PK_DATA takes any value. -/
def Obligations.LengthWritesAreLegalOnly : Prop :=
  ∀ (s : State) (v : Word), s.busy = false →
    (v.toNat ≤ s.cfg.bbufCap → HostWrites s 0x40 v { s with bbufLen := v.toNat }) ∧
    (s.cfg.bbufCap < v.toNat → HostWrites s 0x40 v s) ∧
    (v.toNat ≤ s.cfg.ibufSize → HostWrites s 0x48 v { s with inLen := v.toNat }) ∧
    (s.cfg.ibufSize < v.toNat → HostWrites s 0x48 v s) ∧
    HostWrites s 0x60 v { s with pkData := v }

/-- R56: a host read of BBUF word w returns its bits below BBUF_LEN and 0 elsewhere; a host write stores all 64 bits, changes no bit
of another word, and does not change BBUF_LEN. -/
def Obligations.BbufWindowIsMasked : Prop :=
  ∀ (s : State) (w : Nat) (v : Word), s.busy = false → s.cfg.Ok → w < s.cfg.bbufWords →
    (∃ r, HostReads s (0x100000 + 8 * w) r ∧
      ∀ j < 64, r.getLsbD j = (decide (64 * w + j < s.bbufLen) && s.bbuf.bit (64 * w + j))) ∧
    ∃ t, HostWrites s (0x100000 + 8 * w) v t ∧ t = { s with bbuf := t.bbuf } ∧
      (∀ j < 64, t.bbuf.bit (64 * w + j) = v.getLsbD j) ∧ (∀ k, k / 64 ≠ w → t.bbuf.bit k = s.bbuf.bit k)

/-- R57: IBUF and OBUF words are little-endian. A host read of IBUF returns its bytes whatever IN_LEN is, a write stores all 8 and no
other byte; a host read of OBUF returns a byte below OUT_LEN as stored and any other as 0. -/
def Obligations.ByteBufferWindows : Prop :=
  ∀ (s : State) (w : Nat) (v : Word), s.busy = false → s.cfg.Ok →
    (8 * w < s.cfg.ibufSize →
      (∃ r, HostReads s (0x200000 + 8 * w) r ∧ ∀ b < 8, r.extractLsb' (8 * b) 8 = s.ibuf.byte (8 * w + b)) ∧
      ∃ t, HostWrites s (0x200000 + 8 * w) v t ∧ t = { s with ibuf := t.ibuf } ∧
        (∀ b < 8, t.ibuf.byte (8 * w + b) = v.extractLsb' (8 * b) 8) ∧
        ∀ a, a / 8 ≠ w → t.ibuf.byte a = s.ibuf.byte a) ∧
    (8 * w < s.cfg.obufSize →
      ∃ r, HostReads s (0x300000 + 8 * w) r ∧
        ∀ b < 8, r.extractLsb' (8 * b) 8 = if 8 * w + b < s.outLen then s.obuf.byte (8 * w + b) else 0)

/-- R53, R90: a host write of CW_LEN or CW_BITS of an entry sets the field it names, reads back, and changes no other entry. -/
def Obligations.CwtWindowEntries : Prop :=
  ∀ (s : State) (e : Byte) (b : Nat) (v : Word), s.busy = false → b < 4 →
    (∃ t, HostWrites s (0x4000 + 0x40 * e.toNat) v t ∧ t = { s with cwt := t.cwt } ∧
      t.cwt.cwLen e = (v.extractLsb' 0 8).toNat ∧ (∀ r, r ≠ e → t.cwt.cwLen r = s.cwt.cwLen r) ∧
      (∀ r, ∀ k < 256, t.cwt.cwBit r k = s.cwt.cwBit r k) ∧
      HostReads t (0x4000 + 0x40 * e.toNat) ((v.extractLsb' 0 8).setWidth 64)) ∧
    ∃ t, HostWrites s (0x4008 + 0x40 * e.toNat + 8 * b) v t ∧ t = { s with cwt := t.cwt } ∧
      (∀ r, t.cwt.cwLen r = s.cwt.cwLen r) ∧
      (∀ j < 64, t.cwt.cwBit e (64 * b + j) = v.getLsbD j) ∧
      (∀ r, ∀ k < 256, (r ≠ e ∨ k / 64 ≠ b) → t.cwt.cwBit r k = s.cwt.cwBit r k) ∧
      HostReads t (0x4008 + 0x40 * e.toNat + 8 * b) v

/-- R54, R91: a host read of node k returns the node's word where it is part of the tree, 0 for the slots beyond, and any value
while TREE_VALID = 0. -/
def Obligations.NodeWindowReads : Prop :=
  ∀ (s : State) (k : Nat), s.busy = false → k ≤ 510 →
    (∀ t, Holds t s → ∀ sym, t.sub k = some (.leaf sym) → HostReads s (0x8000 + 8 * k) (1#64 ||| (sym.setWidth 64 <<< 8))) ∧
    (∀ t, Holds t s → ∀ l r, t.sub k = some (.node l r) →
      HostReads s (0x8000 + 8 * k) (BitVec.ofNat 64 ((k + 1) * 2 ^ 16 + (k + 1 + l.size) * 2 ^ 32))) ∧
    (s.treeValid = true → s.nodeCount ≤ k → HostReads s (0x8000 + 8 * k) 0) ∧
    (s.treeValid = false → HostReadsAnyValue s (0x8000 + 8 * k))

/-- R55: reserved offsets read 0 and ignore writes; writes to read-only registers and windows are ignored. -/
def Obligations.ReservedAndReadOnlyOffsets : Prop :=
  ∀ (s : State) (off : Nat) (v : Word), s.busy = false → s.cfg.Ok → off % 8 = 0 →
    (ReservedOffset s.cfg off → HostReads s off 0 ∧ HostWrites s off v s) ∧
    (ReadOnlyOffset s.cfg off → HostWrites s off v s)

/-- R60, R64: a host read changes nothing of the block: only the host's own queue and replies, the free-value counter and the
pending command's delay. -/
def Obligations.ReadsHaveNoSideEffect : Prop :=
  ∀ (s t : State) (addr width : Nat), s.hostMoves → step (s.asks (.read addr width)) = .next t →
    t = { s with engineDelay := t.engineDelay, draws := t.draws, replies := t.replies } ∧
    ∃ v, t.replies = s.replies ++ [v]

/-- R196: while a command is pending, the six registers named are read as at any other time and every other aligned offset reads any
value; CTRL, STATUS and CMD take a write and a write of any other offset is refused. -/
def Obligations.AccessesWhileBusy : Prop :=
  ∀ (s : State) (off : Nat) (v : Word), s.busy = true → s.engineDelay ≠ 0 → off % 8 = 0 → off < 0x400000 →
    (off ∈ [0x00, 0x08, 0x10, 0x18, 0x20, 0x28] →
      ∃ r, HostReads s off r ∧ s.readLoc (locate s.cfg off) = some r) ∧
    (off ∉ [0x00, 0x08, 0x10, 0x18, 0x20, 0x28] → HostReadsAnyValue s off) ∧
    (off ∈ [0x18, 0x20, 0x28] → ∃ t, HostWrites s off v t) ∧
    (off ∉ [0x18, 0x20, 0x28] → step (s.asks (.write (s.cfg.base + off) 8 v)) = .refused .writeWhileBusy)

/-- R50, R51: an access in the window that is not 8 bytes wide and 8-byte aligned is refused; one outside the window faults (the
model's choice of a fault, assumption 9). -/
def Obligations.MisshapenAccessesStop : Prop :=
  ∀ (s : State) (addr width : Nat) (v : Word), s.hostMoves →
    (∀ off, addr = s.cfg.base + off → off < 0x400000 → (width ≠ 8 ∨ off % 8 ≠ 0) →
      step (s.asks (.read addr width)) = .refused .accessShape ∧
      step (s.asks (.write addr width v)) = .refused .accessShape) ∧
    ((addr < s.cfg.base ∨ s.cfg.base + 0x400000 ≤ addr) →
      step (s.asks (.read addr width)) = .fault .outsideWindow ∧
      step (s.asks (.write addr width v)) = .fault .outsideWindow)

/-- R175 to R177: the interrupt line is IRQ_EN AND DONE; every completion raises it when enabled, an accepted CMD write and a W1C of
DONE make it fall, and masking keeps DONE. -/
def Obligations.InterruptFollowsDone : Prop :=
  (∀ (i : Instr) (s t : State), exec i s = .next t → t.irq = s.irqEn) ∧
  (∀ (s t : State) (c : Word), s.busy = false → HostWrites s 0x20 c t → t.irq = false) ∧
  (∀ (s t : State) (v : Word), s.hostMoves → v.getLsbD 1 = true → HostWrites s 0x28 v t → t.irq = false) ∧
  ∀ (s t : State) (v : Word), s.hostMoves → HostWrites s 0x18 v t → t.done = s.done ∧ t.irq = (v.getLsbD 0 && s.done)

/-! ## Reset and the invariant (10_state.md R48, R49; 70_reset_and_hazards.md) -/

/-- R49, R190: the reset input puts every register at its reset value at any time and abandons a pending command; the parameters and
the host's own side stay. That the RAMs hold newly drawn contents with nothing listed is the model's form of "any value" (assumption
4). -/
def Obligations.ResetInputClearsRegisters : Prop :=
  ∀ s : State, s.hostMoves →
    ∃ t, step (s.asks .reset) = .next t ∧
      t = { s with
        irqEn := false, lastCmd := 0, busy := false, done := false, overrun := false, err := false, treeValid := false
        errCode := 0, errSub := 0, errIndex := 0, errSym := 0, result := 0, bbufLen := 0, inLen := 0, outLen := 0
        cursor := 0, pkData := 0, nodeCount := 0, leafCount := 0
        nodes := t.nodes, cwt := t.cwt, bbuf := t.bbuf, ibuf := t.ibuf, obuf := t.obuf
        draws := t.draws, engineDelay := t.engineDelay } ∧
      t.statusWord = 0x10 ∧
      t.cwt.cells = [] ∧ t.bbuf.cells = [] ∧ t.ibuf.cells = [] ∧ t.obuf.cells = []

/-- R48, R49: the invariant holds after reset, with any parameters R9 allows. `State.reset` itself has the parameters of the test
vectors, the model's choice (assumption 1). -/
def Obligations.InvariantHoldsAfterReset : Prop :=
  Inv State.reset ∧
  ∀ (cfg : Config) (draw : Nat) (queue : List HostAction) (replies : List Word), cfg.Ok →
    Inv (State.afterReset cfg draw queue replies)

/-- R48: every step, of the engine or of the host, keeps the invariant: the lengths within their buffers, the loaded tree a full
binary tree in preorder with the cursor on an internal node, the error fields consistent, and every RAM in its canonical form. -/
def Obligations.EveryStepKeepsInvariant : Prop :=
  ∀ s t : State, Inv s → step s = .next t → Inv t

/-- R6, R51, R196: in states of the invariant a step stops only on a host access the spec gives no meaning. -/
def Obligations.OnlyBadAccessesStop : Prop :=
  ∀ s : State, Inv s → (∀ t, step s ≠ .next t) →
    step s = .fault .outsideWindow ∨ step s = .refused .accessShape ∨ step s = .refused .writeWhileBusy
end

