-- ==== Sys2Proof/Laws/Memory.lean ====
section
/-! SUPPORT. The laws of the RAMs: read after write for bytes, bits and words, what a write leaves alone, and that every
operation keeps the canonical form and the bound on addresses. -/

namespace Sys2Proof.Machine

/-! ### One byte -/

theorem lookupCell_insertCell (l : List Host.Cell) (a b : Nat) (v : Byte) :
    lookupCell (insertCell a v l) b = if b = a then some v else lookupCell l b := by
  induction l with
  | nil => simp [insertCell, lookupCell, eq_comm (a := a)]
  | cons c rest ih =>
    obtain ⟨k, w⟩ := c
    simp only [insertCell]
    split
    · simp only [lookupCell, eq_comm (a := a)]
    · split
      · subst a
        by_cases h : b = k
        · simp [lookupCell, h]
        · simp [lookupCell, h, Ne.symm h]
      · simp only [lookupCell, ih]
        by_cases hk : k = b
        · have : b ≠ a := by omega
          simp [hk, this]
        · simp [hk]

theorem lookupCell_eraseCell (l : List Host.Cell) (a b : Nat) :
    lookupCell (eraseCell a l) b = if b = a then none else lookupCell l b := by
  induction l with
  | nil => simp [eraseCell, lookupCell]
  | cons c rest ih =>
    obtain ⟨k, w⟩ := c
    simp only [eraseCell]
    split
    · subst a
      by_cases h : b = k
      · subst b; simp [ih]
      · simp [ih, lookupCell, h, Ne.symm h]
    · simp only [lookupCell, ih]
      by_cases hk : k = b
      · have : b ≠ a := by omega
        simp [hk, this]
      · simp [hk]

theorem Fill.byte_of_unlisted (f : Fill) (a : Nat) (v : Byte) (h : f.unlisted = some v) : f.byte a = v := by
  cases f with
  | powerOn d => simp [Fill.unlisted] at h
  | zero => simpa [Fill.unlisted, Fill.byte] using h

/-- Read after write, for every byte: the byte written at its address, every other byte as before. -/
theorem Memory.byte_setByte (m : Memory) (a b : Nat) (v : Byte) :
    (m.setByte a v).byte b = if b = a then v else m.byte b := by
  unfold Memory.setByte
  split
  · rename_i h
    simp only [Memory.byte, lookupCell_eraseCell]
    split
    · simpa using Fill.byte_of_unlisted _ _ _ h
    · rfl
  · simp only [Memory.byte, lookupCell_insertCell]
    split <;> simp

@[simp] theorem Memory.setByte_fill (m : Memory) (a : Nat) (v : Byte) : (m.setByte a v).fill = m.fill := by
  unfold Memory.setByte; split <;> rfl

@[simp] theorem Memory.byte_zeroed (a : Nat) : Memory.zeroed.byte a = 0 := rfl

theorem mem_insertCell {l : List Host.Cell} {a : Nat} {v : Byte} {c : Host.Cell} (h : c ∈ insertCell a v l) :
    c = (a, v) ∨ c ∈ l := by
  induction l with
  | nil => simpa [insertCell] using h
  | cons d rest ih =>
    obtain ⟨k, w⟩ := d
    simp only [insertCell] at h
    split at h
    · simpa using h
    · split at h
      · rcases List.mem_cons.1 h with h | h
        · exact .inl h
        · exact .inr (List.mem_cons_of_mem _ h)
      · rcases List.mem_cons.1 h with h | h
        · exact .inr (h ▸ List.mem_cons_self)
        · rcases ih h with h | h
          · exact .inl h
          · exact .inr (List.mem_cons_of_mem _ h)

theorem mem_eraseCell {l : List Host.Cell} {a : Nat} {c : Host.Cell} (h : c ∈ eraseCell a l) : c ∈ l := by
  induction l with
  | nil => cases h
  | cons d rest ih =>
    obtain ⟨k, w⟩ := d
    simp only [eraseCell] at h
    split at h
    · exact List.mem_cons_of_mem _ (ih h)
    · rcases List.mem_cons.1 h with h | h
      · exact h ▸ List.mem_cons_self
      · exact List.mem_cons_of_mem _ (ih h)

theorem pairwise_insertCell {l : List Host.Cell} (a : Nat) (v : Byte)
    (h : l.Pairwise (fun x y => x.1 < y.1)) : (insertCell a v l).Pairwise (fun x y => x.1 < y.1) := by
  induction l with
  | nil => simp [insertCell]
  | cons d rest ih =>
    obtain ⟨k, w⟩ := d
    obtain ⟨hk, hr⟩ := List.pairwise_cons.1 h
    simp only [insertCell]
    split
    · rename_i hlt
      refine List.pairwise_cons.2 ⟨?_, h⟩
      intro c hc
      rcases List.mem_cons.1 hc with rfl | hc
      · exact hlt
      · exact lt_trans hlt (hk c hc)
    · split
      · rename_i _ he
        subst he
        exact List.pairwise_cons.2 ⟨hk, hr⟩
      · refine List.pairwise_cons.2 ⟨?_, ih hr⟩
        intro c hc
        rcases mem_insertCell hc with rfl | hc
        · show k < a; omega
        · exact hk c hc

theorem pairwise_eraseCell {l : List Host.Cell} (a : Nat)
    (h : l.Pairwise (fun x y => x.1 < y.1)) : (eraseCell a l).Pairwise (fun x y => x.1 < y.1) := by
  induction l with
  | nil => simp [eraseCell]
  | cons d rest ih =>
    obtain ⟨k, w⟩ := d
    obtain ⟨hk, hr⟩ := List.pairwise_cons.1 h
    simp only [eraseCell]
    split
    · exact ih hr
    · exact List.pairwise_cons.2 ⟨fun c hc => hk c (mem_eraseCell hc), ih hr⟩

/-- A byte write keeps the canonical form. -/
theorem Memory.wf_setByte {m : Memory} (a : Nat) (v : Byte) (h : m.wf) : (m.setByte a v).wf := by
  obtain ⟨hs, hn⟩ := h
  unfold Memory.setByte
  split
  · exact ⟨pairwise_eraseCell a hs, fun c hc => hn c (mem_eraseCell hc)⟩
  · rename_i hv
    refine ⟨pairwise_insertCell a v hs, fun c hc => ?_⟩
    rcases mem_insertCell hc with rfl | hc
    · exact hv
    · exact hn c hc

/-- A byte write below a bound keeps every listed byte below it. -/
theorem Memory.within_setByte {m : Memory} {size : Nat} (a : Nat) (v : Byte) (h : m.Within size) (ha : a < size) :
    (m.setByte a v).Within size := by
  unfold Memory.setByte
  split
  · exact fun c hc => h c (mem_eraseCell hc)
  · intro c hc
    rcases mem_insertCell hc with rfl | hc
    · exact ha
    · exact h c hc

theorem Memory.wf_zeroed : Memory.zeroed.wf := by decide

theorem Memory.within_zeroed (size : Nat) : Memory.zeroed.Within size := by intro c hc; cases hc

/-! ### Bits -/

theorem getLsbD_withBit (x : Byte) (j k : Nat) (b : Bool) (hj : j < 8) :
    (withBit x j b).getLsbD k = if k = j then b else x.getLsbD k := by
  by_cases hk : k < 8
  · simp only [withBit, BitVec.getLsbD_or, BitVec.getLsbD_and, BitVec.getLsbD_not, BitVec.getLsbD_shiftLeft,
      BitVec.getLsbD_setWidth, BitVec.getLsbD_ofBool, BitVec.getLsbD_one]
    by_cases h : k = j
    · subst h; simp [hk]
    · have h0 : k - j ≠ 0 ∨ k < j := by omega
      rcases h0 with h0 | h0 <;> simp [hk, h, h0]
  · have h1 : k ≠ j := by omega
    rw [if_neg h1, BitVec.getLsbD_of_ge _ _ (by omega), BitVec.getLsbD_of_ge _ _ (by omega)]

/-- Read after write, for every bit: `BBUF.setbit(i, b)` "changes bit i of the buffer and no other bit" (R120). -/
theorem Memory.bit_setBit (m : Memory) (i k : Nat) (b : Bool) :
    (m.setBit i b).bit k = if k = i then b else m.bit k := by
  simp only [Memory.bit, Memory.setBit, Memory.byte_setByte]
  by_cases h : k / 8 = i / 8
  · rw [if_pos h, getLsbD_withBit _ _ _ _ (Nat.mod_lt _ (by decide)), h]
    by_cases hk : k = i
    · simp [hk]
    · have : k % 8 ≠ i % 8 := by omega
      simp [hk, this]
  · have : k ≠ i := by rintro rfl; exact h rfl
    simp [h, this]

theorem Memory.byte_setBit_of_ne (m : Memory) (i a : Nat) (b : Bool) (h : a ≠ i / 8) :
    (m.setBit i b).byte a = m.byte a := by
  simp [Memory.setBit, Memory.byte_setByte, h]

@[simp] theorem Memory.bit_zeroed (i : Nat) : Memory.zeroed.bit i = false := by simp [Memory.bit]

theorem Memory.wf_setBit {m : Memory} (i : Nat) (b : Bool) (h : m.wf) : (m.setBit i b).wf := Memory.wf_setByte _ _ h

theorem Memory.within_setBit {m : Memory} {size : Nat} (i : Nat) (b : Bool) (h : m.Within size) (hi : i < 8 * size) :
    (m.setBit i b).Within size := Memory.within_setByte _ _ h (by omega)

/-- Read after a write of consecutive bits: the list's bit inside its range, every other bit as before. -/
theorem Memory.bit_setBits (bs : List Bool) (m : Memory) (i k : Nat) :
    (m.setBits i bs).bit k = if i ≤ k then (bs[k - i]?).getD (m.bit k) else m.bit k := by
  induction bs generalizing m i with
  | nil => simp [Memory.setBits]
  | cons b rest ih =>
    simp only [Memory.setBits, ih, Memory.bit_setBit]
    by_cases h : i ≤ k
    · by_cases h' : i + 1 ≤ k
      · have e : k - i = (k - (i + 1)) + 1 := by omega
        have hne : k ≠ i := by omega
        simp [h, h', hne, e]
      · have e : k = i := by omega
        subst e
        simp
    · have h' : ¬ i + 1 ≤ k := by omega
      have hne : k ≠ i := by omega
      simp [h, h', hne]

/-- A write of consecutive bits leaves every byte outside their range alone. -/
theorem Memory.byte_setBits_of_outside (bs : List Bool) (m : Memory) (i a : Nat)
    (h : 8 * a + 8 ≤ i ∨ i + bs.length ≤ 8 * a) : (m.setBits i bs).byte a = m.byte a := by
  induction bs generalizing m i with
  | nil => rfl
  | cons b rest ih =>
    simp only [List.length_cons] at h
    simp only [Memory.setBits]
    rw [ih _ _ (by omega), Memory.byte_setBit_of_ne _ _ _ _ (by omega)]

theorem Memory.wf_setBits (bs : List Bool) {m : Memory} (i : Nat) (h : m.wf) : (m.setBits i bs).wf := by
  induction bs generalizing m i with
  | nil => exact h
  | cons b rest ih => exact ih _ (Memory.wf_setBit _ _ h)

theorem Memory.within_setBits (bs : List Bool) {m : Memory} {size : Nat} (i : Nat) (h : m.Within size)
    (hi : i + bs.length ≤ 8 * size) : (m.setBits i bs).Within size := by
  induction bs generalizing m i with
  | nil => exact h
  | cons b rest ih =>
    simp only [List.length_cons] at hi
    exact ih _ (Memory.within_setBit _ _ h (by omega)) (by omega)

@[simp] theorem Memory.length_bits (m : Memory) (i n : Nat) : (m.bits i n).length = n := by simp [Memory.bits]

theorem Memory.getElem?_bits (m : Memory) (i n t : Nat) :
    (m.bits i n)[t]? = if t < n then some (m.bit (i + t)) else none := by
  by_cases h : t < n <;> simp [Memory.bits, h]

/-- Two RAMs that agree on a range of bits give the same bit sequence. -/
theorem Memory.bits_congr {m m' : Memory} {i n : Nat} (h : ∀ t < n, m.bit (i + t) = m'.bit (i + t)) :
    m.bits i n = m'.bits i n := by
  apply List.map_congr_left
  intro t ht
  exact h t (List.mem_range.1 ht)

/-- The bits of a range just written are the list written. -/
theorem Memory.bits_setBits_self (bs : List Bool) (m : Memory) (i : Nat) :
    (m.setBits i bs).bits i bs.length = bs := by
  apply List.ext_getElem?
  intro t
  rw [Memory.getElem?_bits]
  split
  · rename_i h
    simp [Memory.bit_setBits, h]
  · rename_i h
    rw [List.getElem?_eq_none (by omega)]

theorem Memory.bits_append (m : Memory) (i n k : Nat) : m.bits i (n + k) = m.bits i n ++ m.bits (i + n) k := by
  apply List.ext_getElem?
  intro t
  simp only [List.getElem?_append, Memory.getElem?_bits, Memory.length_bits]
  by_cases h : t < n
  · have : t < n + k := by omega
    simp [h, this]
  · by_cases h' : t < n + k
    · have : t - n < k := by omega
      have e : i + n + (t - n) = i + t := by omega
      simp [h, h', this, e]
    · have : ¬ t - n < k := by omega
      simp [h, h', this]

/-! ### Words -/

theorem testBit_natOfBits (f : Nat → Bool) (n j : Nat) : (natOfBits f n).testBit j = (decide (j < n) && f j) := by
  have lt : ∀ n, natOfBits f n < 2 ^ n := by
    intro n
    induction n with
    | zero => simp [natOfBits]
    | succ n ih =>
      simp only [natOfBits, Nat.pow_succ]
      split <;> omega
  induction n with
  | zero => simp [natOfBits]
  | succ n ih =>
    simp only [natOfBits]
    have hn := lt n
    split
    · rename_i hf
      rw [Nat.add_comm]
      by_cases hj : j = n
      · subst hj
        rw [Nat.testBit_two_pow_add_eq, Nat.testBit_lt_two_pow hn]
        simp [hf]
      · by_cases hlt : j < n
        · rw [Nat.testBit_two_pow_add_gt hlt, ih]
          have : j < n + 1 := by omega
          simp [hlt, this]
        · have : natOfBits f n + 2 ^ n < 2 ^ (n + 1) := by rw [Nat.pow_succ]; omega
          have h1 : 2 ^ n + natOfBits f n < 2 ^ j :=
            lt_of_lt_of_le (by omega) (Nat.pow_le_pow_right (by decide) (show n + 1 ≤ j by omega))
          rw [Nat.testBit_lt_two_pow h1]
          have : ¬ j < n + 1 := by omega
          simp [this]
    · rename_i hf
      rw [Nat.add_zero, ih]
      by_cases hj : j = n
      · subst hj; simp [hf]
      · have : (j < n + 1) ↔ (j < n) := by omega
        simp [this]

/-- Bit j of a word given bit by bit. -/
theorem getLsbD_wordOfBits (f : Nat → Bool) (j : Nat) : (wordOfBits f).getLsbD j = (decide (j < 64) && f j) := by
  simp [wordOfBits, BitVec.getLsbD_ofNat, testBit_natOfBits]

theorem Memory.getLsbD_word (m : Memory) (w j : Nat) :
    (m.word w).getLsbD j = (decide (j < 64) && m.bit (64 * w + j)) := getLsbD_wordOfBits _ _

theorem Memory.byte_setBytes (m : Memory) (a b : Nat) (v : Word) (n : Nat) :
    (m.setBytes a v n).byte b = if a ≤ b ∧ b < a + n then v.extractLsb' (8 * (b - a)) 8 else m.byte b := by
  induction n with
  | zero =>
    have : ¬ (a ≤ b ∧ b < a + 0) := by omega
    rw [if_neg this]; rfl
  | succ n ih =>
    simp only [Memory.setBytes, Memory.byte_setByte, ih]
    by_cases h : b = a + n
    · have h1 : a ≤ b ∧ b < a + (n + 1) := by omega
      have e : b - a = n := by omega
      rw [if_pos h, if_pos h1, e]
    · by_cases h2 : a ≤ b ∧ b < a + n
      · have h1 : a ≤ b ∧ b < a + (n + 1) := by omega
        rw [if_neg h, if_pos h2, if_pos h1]
      · have h1 : ¬ (a ≤ b ∧ b < a + (n + 1)) := by omega
        rw [if_neg h, if_neg h2, if_neg h1]

/-- Read after a word write, byte by byte. -/
theorem Memory.byte_setWord (m : Memory) (w a : Nat) (v : Word) :
    (m.setWord w v).byte a = if a / 8 = w then v.extractLsb' (8 * (a % 8)) 8 else m.byte a := by
  rw [Memory.setWord, Memory.byte_setBytes]
  by_cases h : a / 8 = w
  · have h1 : 8 * w ≤ a ∧ a < 8 * w + 8 := by omega
    have e : a - 8 * w = a % 8 := by omega
    rw [if_pos h, if_pos h1, e]
  · have h1 : ¬ (8 * w ≤ a ∧ a < 8 * w + 8) := by omega
    rw [if_neg h, if_neg h1]

/-- Read after a word write, bit by bit (R56: a host write sets all 64 bits of its word and no other). -/
theorem Memory.bit_setWord (m : Memory) (w k : Nat) (v : Word) :
    (m.setWord w v).bit k = if k / 64 = w then v.getLsbD (k % 64) else m.bit k := by
  simp only [Memory.bit, Memory.byte_setWord]
  have e : k / 8 / 8 = k / 64 := by omega
  rw [e]
  by_cases h : k / 64 = w
  · have h8 : k % 8 < 8 := Nat.mod_lt _ (by decide)
    have e2 : 8 * (k / 8 % 8) + k % 8 = k % 64 := by omega
    simp [h, h8, e2]
  · simp [h]

theorem Memory.wf_setWord {m : Memory} (w : Nat) (v : Word) (h : m.wf) : (m.setWord w v).wf := by
  have : ∀ n, (m.setBytes (8 * w) v n).wf := by
    intro n
    induction n with
    | zero => exact h
    | succ n ih => exact Memory.wf_setByte _ _ ih
  exact this 8

theorem Memory.within_setWord {m : Memory} {size : Nat} (w : Nat) (v : Word) (h : m.Within size)
    (hw : 8 * w + 8 ≤ size) : (m.setWord w v).Within size := by
  have : ∀ n, n ≤ 8 → (m.setBytes (8 * w) v n).Within size := by
    intro n
    induction n with
    | zero => exact fun _ => h
    | succ n ih => exact fun hn => Memory.within_setByte _ _ (ih (by omega)) (by omega)
  exact this 8 (le_refl _)

/-! ### The codeword table -/

theorem Memory.wf_setCodeword {m : Memory} (s : Byte) (p : List Bool) (h : m.wf) : (m.setCodeword s p).wf :=
  Memory.wf_setBits _ _ (Memory.wf_setByte _ _ h)

/-- An entry of at most 255 bits lies inside the table's window of 0x4000 bytes (R52, R90). -/
theorem Memory.within_setCodeword {m : Memory} (s : Byte) (p : List Bool) (h : m.Within 0x4000) (hp : p.length ≤ 256) :
    (m.setCodeword s p).Within 0x4000 := by
  have hs : s.toNat < 256 := s.isLt
  refine Memory.within_setBits _ _ (Memory.within_setByte _ _ h (by omega)) ?_
  simp only [cwBitBase]; omega

/-- Writing a codeword of at most 255 bits sets the length of its entry and no other length. -/
theorem Memory.cwLen_setCodeword (m : Memory) (s r : Byte) (p : List Bool) (hp : p.length < 256) :
    (m.setCodeword s p).cwLen r = if r = s then p.length else m.cwLen r := by
  have hs : s.toNat < 256 := s.isLt
  have hr : r.toNat < 256 := r.isLt
  have hne : r ≠ s → r.toNat ≠ s.toNat := fun h h' => h (BitVec.eq_of_toNat_eq h')
  simp only [Memory.cwLen, Memory.setCodeword]
  rw [Memory.byte_setBits_of_outside _ _ _ _ (by simp only [cwBitBase]; omega), Memory.byte_setByte]
  by_cases h : r = s
  · subst h
    simp [Nat.mod_eq_of_lt hp]
  · have : 64 * r.toNat ≠ 64 * s.toNat := by have := hne h; omega
    simp [h, this]

/-- Writing a codeword sets the bits of its entry below its length and no other code bit. -/
theorem Memory.cwBit_setCodeword (m : Memory) (s r : Byte) (p : List Bool) (t : Nat) (ht : t < 256)
    (hp : p.length ≤ 256) :
    (m.setCodeword s p).cwBit r t = if r = s then (p[t]?).getD (m.cwBit s t) else m.cwBit r t := by
  have hs : s.toNat < 256 := s.isLt
  have hr : r.toNat < 256 := r.isLt
  have hne : r ≠ s → r.toNat ≠ s.toNat := fun h h' => h (BitVec.eq_of_toNat_eq h')
  have keep : ∀ q : Byte, (m.setByte (64 * s.toNat) (BitVec.ofNat 8 p.length)).bit (cwBitBase q + t) = m.bit (cwBitBase q + t) := by
    intro q
    have : q.toNat < 256 := q.isLt
    have h1 : (cwBitBase q + t) / 8 ≠ 64 * s.toNat := by simp only [cwBitBase]; omega
    simp only [Memory.bit, Memory.byte_setByte, if_neg h1]
  simp only [Memory.cwBit, Memory.setCodeword, Memory.bit_setBits, keep]
  by_cases h : r = s
  · subst h
    simp
  · have := hne h
    rw [if_neg h]
    split
    · rename_i hle
      rw [List.getElem?_eq_none (by simp only [cwBitBase] at *; omega)]
      rfl
    · rfl

end Sys2Proof.Machine
end

