-- ==== Sys2Proof/Laws/State.lean ====
section
/-! SUPPORT. One lemma per field and named update of the state, each true by rfl, so that no proof unfolds a record update. -/

namespace Sys2Proof.Machine

variable (s : State)

/-! ### `State.complete` -/

@[simp] theorem State.complete_cfg : s.complete.cfg = s.cfg := rfl
@[simp] theorem State.complete_irqEn : s.complete.irqEn = s.irqEn := rfl
@[simp] theorem State.complete_lastCmd : s.complete.lastCmd = s.lastCmd := rfl
@[simp] theorem State.complete_busy : s.complete.busy = false := rfl
@[simp] theorem State.complete_done : s.complete.done = true := rfl
@[simp] theorem State.complete_err : s.complete.err = s.err := rfl
@[simp] theorem State.complete_treeValid : s.complete.treeValid = s.treeValid := rfl
@[simp] theorem State.complete_overrun : s.complete.overrun = s.overrun := rfl
@[simp] theorem State.complete_errCode : s.complete.errCode = s.errCode := rfl
@[simp] theorem State.complete_errSub : s.complete.errSub = s.errSub := rfl
@[simp] theorem State.complete_errIndex : s.complete.errIndex = s.errIndex := rfl
@[simp] theorem State.complete_errSym : s.complete.errSym = s.errSym := rfl
@[simp] theorem State.complete_result : s.complete.result = s.result := rfl
@[simp] theorem State.complete_bbufLen : s.complete.bbufLen = s.bbufLen := rfl
@[simp] theorem State.complete_inLen : s.complete.inLen = s.inLen := rfl
@[simp] theorem State.complete_outLen : s.complete.outLen = s.outLen := rfl
@[simp] theorem State.complete_cursor : s.complete.cursor = s.cursor := rfl
@[simp] theorem State.complete_pkData : s.complete.pkData = s.pkData := rfl
@[simp] theorem State.complete_nodeCount : s.complete.nodeCount = s.nodeCount := rfl
@[simp] theorem State.complete_leafCount : s.complete.leafCount = s.leafCount := rfl
@[simp] theorem State.complete_nodes : s.complete.nodes = s.nodes := rfl
@[simp] theorem State.complete_cwt : s.complete.cwt = s.cwt := rfl
@[simp] theorem State.complete_bbuf : s.complete.bbuf = s.bbuf := rfl
@[simp] theorem State.complete_ibuf : s.complete.ibuf = s.ibuf := rfl
@[simp] theorem State.complete_obuf : s.complete.obuf = s.obuf := rfl
@[simp] theorem State.complete_draws : s.complete.draws = s.draws := rfl
@[simp] theorem State.complete_engineDelay : s.complete.engineDelay = s.engineDelay := rfl
@[simp] theorem State.complete_hostQueue : s.complete.hostQueue = s.hostQueue := rfl
@[simp] theorem State.complete_replies : s.complete.replies = s.replies := rfl

/-! ### `State.raise` -/

@[simp] theorem State.raise_cfg (e : Err) : (s.raise e).cfg = s.cfg := rfl
@[simp] theorem State.raise_irqEn (e : Err) : (s.raise e).irqEn = s.irqEn := rfl
@[simp] theorem State.raise_lastCmd (e : Err) : (s.raise e).lastCmd = s.lastCmd := rfl
@[simp] theorem State.raise_busy (e : Err) : (s.raise e).busy = false := rfl
@[simp] theorem State.raise_done (e : Err) : (s.raise e).done = true := rfl
@[simp] theorem State.raise_err (e : Err) : (s.raise e).err = true := rfl
@[simp] theorem State.raise_treeValid (e : Err) : (s.raise e).treeValid = s.treeValid := rfl
@[simp] theorem State.raise_overrun (e : Err) : (s.raise e).overrun = s.overrun := rfl
@[simp] theorem State.raise_errCode (e : Err) : (s.raise e).errCode = e.code := rfl
@[simp] theorem State.raise_errSub (e : Err) : (s.raise e).errSub = e.sub := rfl
@[simp] theorem State.raise_errIndex (e : Err) : (s.raise e).errIndex = e.index := rfl
@[simp] theorem State.raise_errSym (e : Err) : (s.raise e).errSym = e.sym := rfl
@[simp] theorem State.raise_result (e : Err) : (s.raise e).result = s.result := rfl
@[simp] theorem State.raise_bbufLen (e : Err) : (s.raise e).bbufLen = s.bbufLen := rfl
@[simp] theorem State.raise_inLen (e : Err) : (s.raise e).inLen = s.inLen := rfl
@[simp] theorem State.raise_outLen (e : Err) : (s.raise e).outLen = s.outLen := rfl
@[simp] theorem State.raise_cursor (e : Err) : (s.raise e).cursor = s.cursor := rfl
@[simp] theorem State.raise_pkData (e : Err) : (s.raise e).pkData = s.pkData := rfl
@[simp] theorem State.raise_nodeCount (e : Err) : (s.raise e).nodeCount = s.nodeCount := rfl
@[simp] theorem State.raise_leafCount (e : Err) : (s.raise e).leafCount = s.leafCount := rfl
@[simp] theorem State.raise_nodes (e : Err) : (s.raise e).nodes = s.nodes := rfl
@[simp] theorem State.raise_cwt (e : Err) : (s.raise e).cwt = s.cwt := rfl
@[simp] theorem State.raise_bbuf (e : Err) : (s.raise e).bbuf = s.bbuf := rfl
@[simp] theorem State.raise_ibuf (e : Err) : (s.raise e).ibuf = s.ibuf := rfl
@[simp] theorem State.raise_obuf (e : Err) : (s.raise e).obuf = s.obuf := rfl
@[simp] theorem State.raise_draws (e : Err) : (s.raise e).draws = s.draws := rfl
@[simp] theorem State.raise_engineDelay (e : Err) : (s.raise e).engineDelay = s.engineDelay := rfl
@[simp] theorem State.raise_hostQueue (e : Err) : (s.raise e).hostQueue = s.hostQueue := rfl
@[simp] theorem State.raise_replies (e : Err) : (s.raise e).replies = s.replies := rfl

/-! ### `State.pend` -/

@[simp] theorem State.pend_cfg (c : Word) (d : Nat) : (s.pend c d).cfg = s.cfg := rfl
@[simp] theorem State.pend_irqEn (c : Word) (d : Nat) : (s.pend c d).irqEn = s.irqEn := rfl
@[simp] theorem State.pend_lastCmd (c : Word) (d : Nat) : (s.pend c d).lastCmd = c := rfl
@[simp] theorem State.pend_busy (c : Word) (d : Nat) : (s.pend c d).busy = true := rfl
@[simp] theorem State.pend_done (c : Word) (d : Nat) : (s.pend c d).done = false := rfl
@[simp] theorem State.pend_err (c : Word) (d : Nat) : (s.pend c d).err = false := rfl
@[simp] theorem State.pend_treeValid (c : Word) (d : Nat) : (s.pend c d).treeValid = s.treeValid := rfl
@[simp] theorem State.pend_overrun (c : Word) (d : Nat) : (s.pend c d).overrun = s.overrun := rfl
@[simp] theorem State.pend_errCode (c : Word) (d : Nat) : (s.pend c d).errCode = 0 := rfl
@[simp] theorem State.pend_errSub (c : Word) (d : Nat) : (s.pend c d).errSub = 0 := rfl
@[simp] theorem State.pend_errIndex (c : Word) (d : Nat) : (s.pend c d).errIndex = 0 := rfl
@[simp] theorem State.pend_errSym (c : Word) (d : Nat) : (s.pend c d).errSym = 0 := rfl
@[simp] theorem State.pend_result (c : Word) (d : Nat) : (s.pend c d).result = s.result := rfl
@[simp] theorem State.pend_bbufLen (c : Word) (d : Nat) : (s.pend c d).bbufLen = s.bbufLen := rfl
@[simp] theorem State.pend_inLen (c : Word) (d : Nat) : (s.pend c d).inLen = s.inLen := rfl
@[simp] theorem State.pend_outLen (c : Word) (d : Nat) : (s.pend c d).outLen = s.outLen := rfl
@[simp] theorem State.pend_cursor (c : Word) (d : Nat) : (s.pend c d).cursor = s.cursor := rfl
@[simp] theorem State.pend_pkData (c : Word) (d : Nat) : (s.pend c d).pkData = s.pkData := rfl
@[simp] theorem State.pend_nodeCount (c : Word) (d : Nat) : (s.pend c d).nodeCount = s.nodeCount := rfl
@[simp] theorem State.pend_leafCount (c : Word) (d : Nat) : (s.pend c d).leafCount = s.leafCount := rfl
@[simp] theorem State.pend_nodes (c : Word) (d : Nat) : (s.pend c d).nodes = s.nodes := rfl
@[simp] theorem State.pend_cwt (c : Word) (d : Nat) : (s.pend c d).cwt = s.cwt := rfl
@[simp] theorem State.pend_bbuf (c : Word) (d : Nat) : (s.pend c d).bbuf = s.bbuf := rfl
@[simp] theorem State.pend_ibuf (c : Word) (d : Nat) : (s.pend c d).ibuf = s.ibuf := rfl
@[simp] theorem State.pend_obuf (c : Word) (d : Nat) : (s.pend c d).obuf = s.obuf := rfl
@[simp] theorem State.pend_draws (c : Word) (d : Nat) : (s.pend c d).draws = s.draws := rfl
@[simp] theorem State.pend_engineDelay (c : Word) (d : Nat) : (s.pend c d).engineDelay = d := rfl
@[simp] theorem State.pend_hostQueue (c : Word) (d : Nat) : (s.pend c d).hostQueue = s.hostQueue := rfl
@[simp] theorem State.pend_replies (c : Word) (d : Nat) : (s.pend c d).replies = s.replies := rfl

/-! ### `State.issue` -/

@[simp] theorem State.issue_cfg (c : Word) : (s.issue c).cfg = s.cfg := rfl
@[simp] theorem State.issue_irqEn (c : Word) : (s.issue c).irqEn = s.irqEn := rfl
@[simp] theorem State.issue_lastCmd (c : Word) : (s.issue c).lastCmd = c := rfl
@[simp] theorem State.issue_busy (c : Word) : (s.issue c).busy = true := rfl
@[simp] theorem State.issue_done (c : Word) : (s.issue c).done = false := rfl
@[simp] theorem State.issue_err (c : Word) : (s.issue c).err = false := rfl
@[simp] theorem State.issue_treeValid (c : Word) : (s.issue c).treeValid = s.treeValid := rfl
@[simp] theorem State.issue_overrun (c : Word) : (s.issue c).overrun = s.overrun := rfl
@[simp] theorem State.issue_errCode (c : Word) : (s.issue c).errCode = 0 := rfl
@[simp] theorem State.issue_errSub (c : Word) : (s.issue c).errSub = 0 := rfl
@[simp] theorem State.issue_errIndex (c : Word) : (s.issue c).errIndex = 0 := rfl
@[simp] theorem State.issue_errSym (c : Word) : (s.issue c).errSym = 0 := rfl
@[simp] theorem State.issue_result (c : Word) : (s.issue c).result = s.result := rfl
@[simp] theorem State.issue_bbufLen (c : Word) : (s.issue c).bbufLen = s.bbufLen := rfl
@[simp] theorem State.issue_inLen (c : Word) : (s.issue c).inLen = s.inLen := rfl
@[simp] theorem State.issue_outLen (c : Word) : (s.issue c).outLen = s.outLen := rfl
@[simp] theorem State.issue_cursor (c : Word) : (s.issue c).cursor = s.cursor := rfl
@[simp] theorem State.issue_pkData (c : Word) : (s.issue c).pkData = s.pkData := rfl
@[simp] theorem State.issue_nodeCount (c : Word) : (s.issue c).nodeCount = s.nodeCount := rfl
@[simp] theorem State.issue_leafCount (c : Word) : (s.issue c).leafCount = s.leafCount := rfl
@[simp] theorem State.issue_nodes (c : Word) : (s.issue c).nodes = s.nodes := rfl
@[simp] theorem State.issue_cwt (c : Word) : (s.issue c).cwt = s.cwt := rfl
@[simp] theorem State.issue_bbuf (c : Word) : (s.issue c).bbuf = s.bbuf := rfl
@[simp] theorem State.issue_ibuf (c : Word) : (s.issue c).ibuf = s.ibuf := rfl
@[simp] theorem State.issue_obuf (c : Word) : (s.issue c).obuf = s.obuf := rfl
@[simp] theorem State.issue_draws (c : Word) : (s.issue c).draws = s.draws + 1 := rfl
@[simp] theorem State.issue_engineDelay (c : Word) : (s.issue c).engineDelay = Config.engineDelay s.draws := rfl
@[simp] theorem State.issue_hostQueue (c : Word) : (s.issue c).hostQueue = s.hostQueue := rfl
@[simp] theorem State.issue_replies (c : Word) : (s.issue c).replies = s.replies := rfl

/-! ### `State.dropCommand` -/

@[simp] theorem State.dropCommand_cfg : s.dropCommand.cfg = s.cfg := rfl
@[simp] theorem State.dropCommand_irqEn : s.dropCommand.irqEn = s.irqEn := rfl
@[simp] theorem State.dropCommand_lastCmd : s.dropCommand.lastCmd = s.lastCmd := rfl
@[simp] theorem State.dropCommand_busy : s.dropCommand.busy = s.busy := rfl
@[simp] theorem State.dropCommand_done : s.dropCommand.done = s.done := rfl
@[simp] theorem State.dropCommand_err : s.dropCommand.err = s.err := rfl
@[simp] theorem State.dropCommand_treeValid : s.dropCommand.treeValid = s.treeValid := rfl
@[simp] theorem State.dropCommand_overrun : s.dropCommand.overrun = true := rfl
@[simp] theorem State.dropCommand_errCode : s.dropCommand.errCode = s.errCode := rfl
@[simp] theorem State.dropCommand_errSub : s.dropCommand.errSub = s.errSub := rfl
@[simp] theorem State.dropCommand_errIndex : s.dropCommand.errIndex = s.errIndex := rfl
@[simp] theorem State.dropCommand_errSym : s.dropCommand.errSym = s.errSym := rfl
@[simp] theorem State.dropCommand_result : s.dropCommand.result = s.result := rfl
@[simp] theorem State.dropCommand_bbufLen : s.dropCommand.bbufLen = s.bbufLen := rfl
@[simp] theorem State.dropCommand_inLen : s.dropCommand.inLen = s.inLen := rfl
@[simp] theorem State.dropCommand_outLen : s.dropCommand.outLen = s.outLen := rfl
@[simp] theorem State.dropCommand_cursor : s.dropCommand.cursor = s.cursor := rfl
@[simp] theorem State.dropCommand_pkData : s.dropCommand.pkData = s.pkData := rfl
@[simp] theorem State.dropCommand_nodeCount : s.dropCommand.nodeCount = s.nodeCount := rfl
@[simp] theorem State.dropCommand_leafCount : s.dropCommand.leafCount = s.leafCount := rfl
@[simp] theorem State.dropCommand_nodes : s.dropCommand.nodes = s.nodes := rfl
@[simp] theorem State.dropCommand_cwt : s.dropCommand.cwt = s.cwt := rfl
@[simp] theorem State.dropCommand_bbuf : s.dropCommand.bbuf = s.bbuf := rfl
@[simp] theorem State.dropCommand_ibuf : s.dropCommand.ibuf = s.ibuf := rfl
@[simp] theorem State.dropCommand_obuf : s.dropCommand.obuf = s.obuf := rfl
@[simp] theorem State.dropCommand_draws : s.dropCommand.draws = s.draws := rfl
@[simp] theorem State.dropCommand_engineDelay : s.dropCommand.engineDelay = s.engineDelay := rfl
@[simp] theorem State.dropCommand_hostQueue : s.dropCommand.hostQueue = s.hostQueue := rfl
@[simp] theorem State.dropCommand_replies : s.dropCommand.replies = s.replies := rfl

/-! ### `State.ackStatus` -/

@[simp] theorem State.ackStatus_cfg (v : Word) : (s.ackStatus v).cfg = s.cfg := rfl
@[simp] theorem State.ackStatus_irqEn (v : Word) : (s.ackStatus v).irqEn = s.irqEn := rfl
@[simp] theorem State.ackStatus_lastCmd (v : Word) : (s.ackStatus v).lastCmd = s.lastCmd := rfl
@[simp] theorem State.ackStatus_busy (v : Word) : (s.ackStatus v).busy = s.busy := rfl
@[simp] theorem State.ackStatus_done (v : Word) : (s.ackStatus v).done = (s.done && !v.getLsbD 1) := rfl
@[simp] theorem State.ackStatus_err (v : Word) : (s.ackStatus v).err = s.err := rfl
@[simp] theorem State.ackStatus_treeValid (v : Word) : (s.ackStatus v).treeValid = s.treeValid := rfl
@[simp] theorem State.ackStatus_overrun (v : Word) : (s.ackStatus v).overrun = (s.overrun && !v.getLsbD 5) := rfl
@[simp] theorem State.ackStatus_errCode (v : Word) : (s.ackStatus v).errCode = s.errCode := rfl
@[simp] theorem State.ackStatus_errSub (v : Word) : (s.ackStatus v).errSub = s.errSub := rfl
@[simp] theorem State.ackStatus_errIndex (v : Word) : (s.ackStatus v).errIndex = s.errIndex := rfl
@[simp] theorem State.ackStatus_errSym (v : Word) : (s.ackStatus v).errSym = s.errSym := rfl
@[simp] theorem State.ackStatus_result (v : Word) : (s.ackStatus v).result = s.result := rfl
@[simp] theorem State.ackStatus_bbufLen (v : Word) : (s.ackStatus v).bbufLen = s.bbufLen := rfl
@[simp] theorem State.ackStatus_inLen (v : Word) : (s.ackStatus v).inLen = s.inLen := rfl
@[simp] theorem State.ackStatus_outLen (v : Word) : (s.ackStatus v).outLen = s.outLen := rfl
@[simp] theorem State.ackStatus_cursor (v : Word) : (s.ackStatus v).cursor = s.cursor := rfl
@[simp] theorem State.ackStatus_pkData (v : Word) : (s.ackStatus v).pkData = s.pkData := rfl
@[simp] theorem State.ackStatus_nodeCount (v : Word) : (s.ackStatus v).nodeCount = s.nodeCount := rfl
@[simp] theorem State.ackStatus_leafCount (v : Word) : (s.ackStatus v).leafCount = s.leafCount := rfl
@[simp] theorem State.ackStatus_nodes (v : Word) : (s.ackStatus v).nodes = s.nodes := rfl
@[simp] theorem State.ackStatus_cwt (v : Word) : (s.ackStatus v).cwt = s.cwt := rfl
@[simp] theorem State.ackStatus_bbuf (v : Word) : (s.ackStatus v).bbuf = s.bbuf := rfl
@[simp] theorem State.ackStatus_ibuf (v : Word) : (s.ackStatus v).ibuf = s.ibuf := rfl
@[simp] theorem State.ackStatus_obuf (v : Word) : (s.ackStatus v).obuf = s.obuf := rfl
@[simp] theorem State.ackStatus_draws (v : Word) : (s.ackStatus v).draws = s.draws := rfl
@[simp] theorem State.ackStatus_engineDelay (v : Word) : (s.ackStatus v).engineDelay = s.engineDelay := rfl
@[simp] theorem State.ackStatus_hostQueue (v : Word) : (s.ackStatus v).hostQueue = s.hostQueue := rfl
@[simp] theorem State.ackStatus_replies (v : Word) : (s.ackStatus v).replies = s.replies := rfl

/-! ### `State.appendBits` -/

@[simp] theorem State.appendBits_cfg (l : List Bool) : (s.appendBits l).cfg = s.cfg := rfl
@[simp] theorem State.appendBits_irqEn (l : List Bool) : (s.appendBits l).irqEn = s.irqEn := rfl
@[simp] theorem State.appendBits_lastCmd (l : List Bool) : (s.appendBits l).lastCmd = s.lastCmd := rfl
@[simp] theorem State.appendBits_busy (l : List Bool) : (s.appendBits l).busy = s.busy := rfl
@[simp] theorem State.appendBits_done (l : List Bool) : (s.appendBits l).done = s.done := rfl
@[simp] theorem State.appendBits_err (l : List Bool) : (s.appendBits l).err = s.err := rfl
@[simp] theorem State.appendBits_treeValid (l : List Bool) : (s.appendBits l).treeValid = s.treeValid := rfl
@[simp] theorem State.appendBits_overrun (l : List Bool) : (s.appendBits l).overrun = s.overrun := rfl
@[simp] theorem State.appendBits_errCode (l : List Bool) : (s.appendBits l).errCode = s.errCode := rfl
@[simp] theorem State.appendBits_errSub (l : List Bool) : (s.appendBits l).errSub = s.errSub := rfl
@[simp] theorem State.appendBits_errIndex (l : List Bool) : (s.appendBits l).errIndex = s.errIndex := rfl
@[simp] theorem State.appendBits_errSym (l : List Bool) : (s.appendBits l).errSym = s.errSym := rfl
@[simp] theorem State.appendBits_result (l : List Bool) : (s.appendBits l).result = s.result := rfl
@[simp] theorem State.appendBits_bbufLen (l : List Bool) : (s.appendBits l).bbufLen = s.bbufLen + l.length := rfl
@[simp] theorem State.appendBits_inLen (l : List Bool) : (s.appendBits l).inLen = s.inLen := rfl
@[simp] theorem State.appendBits_outLen (l : List Bool) : (s.appendBits l).outLen = s.outLen := rfl
@[simp] theorem State.appendBits_cursor (l : List Bool) : (s.appendBits l).cursor = s.cursor := rfl
@[simp] theorem State.appendBits_pkData (l : List Bool) : (s.appendBits l).pkData = s.pkData := rfl
@[simp] theorem State.appendBits_nodeCount (l : List Bool) : (s.appendBits l).nodeCount = s.nodeCount := rfl
@[simp] theorem State.appendBits_leafCount (l : List Bool) : (s.appendBits l).leafCount = s.leafCount := rfl
@[simp] theorem State.appendBits_nodes (l : List Bool) : (s.appendBits l).nodes = s.nodes := rfl
@[simp] theorem State.appendBits_cwt (l : List Bool) : (s.appendBits l).cwt = s.cwt := rfl
@[simp] theorem State.appendBits_bbuf (l : List Bool) : (s.appendBits l).bbuf = s.bbuf.setBits s.bbufLen l := rfl
@[simp] theorem State.appendBits_ibuf (l : List Bool) : (s.appendBits l).ibuf = s.ibuf := rfl
@[simp] theorem State.appendBits_obuf (l : List Bool) : (s.appendBits l).obuf = s.obuf := rfl
@[simp] theorem State.appendBits_draws (l : List Bool) : (s.appendBits l).draws = s.draws := rfl
@[simp] theorem State.appendBits_engineDelay (l : List Bool) : (s.appendBits l).engineDelay = s.engineDelay := rfl
@[simp] theorem State.appendBits_hostQueue (l : List Bool) : (s.appendBits l).hostQueue = s.hostQueue := rfl
@[simp] theorem State.appendBits_replies (l : List Bool) : (s.appendBits l).replies = s.replies := rfl

/-! ### `State.clearBbuf` -/

@[simp] theorem State.clearBbuf_cfg : s.clearBbuf.cfg = s.cfg := rfl
@[simp] theorem State.clearBbuf_irqEn : s.clearBbuf.irqEn = s.irqEn := rfl
@[simp] theorem State.clearBbuf_lastCmd : s.clearBbuf.lastCmd = s.lastCmd := rfl
@[simp] theorem State.clearBbuf_busy : s.clearBbuf.busy = s.busy := rfl
@[simp] theorem State.clearBbuf_done : s.clearBbuf.done = s.done := rfl
@[simp] theorem State.clearBbuf_err : s.clearBbuf.err = s.err := rfl
@[simp] theorem State.clearBbuf_treeValid : s.clearBbuf.treeValid = s.treeValid := rfl
@[simp] theorem State.clearBbuf_overrun : s.clearBbuf.overrun = s.overrun := rfl
@[simp] theorem State.clearBbuf_errCode : s.clearBbuf.errCode = s.errCode := rfl
@[simp] theorem State.clearBbuf_errSub : s.clearBbuf.errSub = s.errSub := rfl
@[simp] theorem State.clearBbuf_errIndex : s.clearBbuf.errIndex = s.errIndex := rfl
@[simp] theorem State.clearBbuf_errSym : s.clearBbuf.errSym = s.errSym := rfl
@[simp] theorem State.clearBbuf_result : s.clearBbuf.result = s.result := rfl
@[simp] theorem State.clearBbuf_bbufLen : s.clearBbuf.bbufLen = 0 := rfl
@[simp] theorem State.clearBbuf_inLen : s.clearBbuf.inLen = s.inLen := rfl
@[simp] theorem State.clearBbuf_outLen : s.clearBbuf.outLen = s.outLen := rfl
@[simp] theorem State.clearBbuf_cursor : s.clearBbuf.cursor = s.cursor := rfl
@[simp] theorem State.clearBbuf_pkData : s.clearBbuf.pkData = s.pkData := rfl
@[simp] theorem State.clearBbuf_nodeCount : s.clearBbuf.nodeCount = s.nodeCount := rfl
@[simp] theorem State.clearBbuf_leafCount : s.clearBbuf.leafCount = s.leafCount := rfl
@[simp] theorem State.clearBbuf_nodes : s.clearBbuf.nodes = s.nodes := rfl
@[simp] theorem State.clearBbuf_cwt : s.clearBbuf.cwt = s.cwt := rfl
@[simp] theorem State.clearBbuf_bbuf : s.clearBbuf.bbuf = Memory.zeroed := rfl
@[simp] theorem State.clearBbuf_ibuf : s.clearBbuf.ibuf = s.ibuf := rfl
@[simp] theorem State.clearBbuf_obuf : s.clearBbuf.obuf = s.obuf := rfl
@[simp] theorem State.clearBbuf_draws : s.clearBbuf.draws = s.draws := rfl
@[simp] theorem State.clearBbuf_engineDelay : s.clearBbuf.engineDelay = s.engineDelay := rfl
@[simp] theorem State.clearBbuf_hostQueue : s.clearBbuf.hostQueue = s.hostQueue := rfl
@[simp] theorem State.clearBbuf_replies : s.clearBbuf.replies = s.replies := rfl

/-! ### `State.dropTree` -/

@[simp] theorem State.dropTree_cfg : s.dropTree.cfg = s.cfg := rfl
@[simp] theorem State.dropTree_irqEn : s.dropTree.irqEn = s.irqEn := rfl
@[simp] theorem State.dropTree_lastCmd : s.dropTree.lastCmd = s.lastCmd := rfl
@[simp] theorem State.dropTree_busy : s.dropTree.busy = s.busy := rfl
@[simp] theorem State.dropTree_done : s.dropTree.done = s.done := rfl
@[simp] theorem State.dropTree_err : s.dropTree.err = s.err := rfl
@[simp] theorem State.dropTree_treeValid : s.dropTree.treeValid = false := rfl
@[simp] theorem State.dropTree_overrun : s.dropTree.overrun = s.overrun := rfl
@[simp] theorem State.dropTree_errCode : s.dropTree.errCode = s.errCode := rfl
@[simp] theorem State.dropTree_errSub : s.dropTree.errSub = s.errSub := rfl
@[simp] theorem State.dropTree_errIndex : s.dropTree.errIndex = s.errIndex := rfl
@[simp] theorem State.dropTree_errSym : s.dropTree.errSym = s.errSym := rfl
@[simp] theorem State.dropTree_result : s.dropTree.result = s.result := rfl
@[simp] theorem State.dropTree_bbufLen : s.dropTree.bbufLen = s.bbufLen := rfl
@[simp] theorem State.dropTree_inLen : s.dropTree.inLen = s.inLen := rfl
@[simp] theorem State.dropTree_outLen : s.dropTree.outLen = s.outLen := rfl
@[simp] theorem State.dropTree_cursor : s.dropTree.cursor = 0 := rfl
@[simp] theorem State.dropTree_pkData : s.dropTree.pkData = s.pkData := rfl
@[simp] theorem State.dropTree_nodeCount : s.dropTree.nodeCount = 0 := rfl
@[simp] theorem State.dropTree_leafCount : s.dropTree.leafCount = 0 := rfl
@[simp] theorem State.dropTree_nodes : s.dropTree.nodes = [] := rfl
@[simp] theorem State.dropTree_cwt : s.dropTree.cwt = s.cwt := rfl
@[simp] theorem State.dropTree_bbuf : s.dropTree.bbuf = s.bbuf := rfl
@[simp] theorem State.dropTree_ibuf : s.dropTree.ibuf = s.ibuf := rfl
@[simp] theorem State.dropTree_obuf : s.dropTree.obuf = s.obuf := rfl
@[simp] theorem State.dropTree_draws : s.dropTree.draws = s.draws := rfl
@[simp] theorem State.dropTree_engineDelay : s.dropTree.engineDelay = s.engineDelay := rfl
@[simp] theorem State.dropTree_hostQueue : s.dropTree.hostQueue = s.hostQueue := rfl
@[simp] theorem State.dropTree_replies : s.dropTree.replies = s.replies := rfl

/-! ### `State.installTree` -/

@[simp] theorem State.installTree_cfg (w : Walk) : (s.installTree w).cfg = s.cfg := rfl
@[simp] theorem State.installTree_irqEn (w : Walk) : (s.installTree w).irqEn = s.irqEn := rfl
@[simp] theorem State.installTree_lastCmd (w : Walk) : (s.installTree w).lastCmd = s.lastCmd := rfl
@[simp] theorem State.installTree_busy (w : Walk) : (s.installTree w).busy = s.busy := rfl
@[simp] theorem State.installTree_done (w : Walk) : (s.installTree w).done = s.done := rfl
@[simp] theorem State.installTree_err (w : Walk) : (s.installTree w).err = s.err := rfl
@[simp] theorem State.installTree_treeValid (w : Walk) : (s.installTree w).treeValid = true := rfl
@[simp] theorem State.installTree_overrun (w : Walk) : (s.installTree w).overrun = s.overrun := rfl
@[simp] theorem State.installTree_errCode (w : Walk) : (s.installTree w).errCode = s.errCode := rfl
@[simp] theorem State.installTree_errSub (w : Walk) : (s.installTree w).errSub = s.errSub := rfl
@[simp] theorem State.installTree_errIndex (w : Walk) : (s.installTree w).errIndex = s.errIndex := rfl
@[simp] theorem State.installTree_errSym (w : Walk) : (s.installTree w).errSym = s.errSym := rfl
@[simp] theorem State.installTree_result (w : Walk) : (s.installTree w).result = s.result := rfl
@[simp] theorem State.installTree_bbufLen (w : Walk) : (s.installTree w).bbufLen = s.bbufLen := rfl
@[simp] theorem State.installTree_inLen (w : Walk) : (s.installTree w).inLen = s.inLen := rfl
@[simp] theorem State.installTree_outLen (w : Walk) : (s.installTree w).outLen = s.outLen := rfl
@[simp] theorem State.installTree_cursor (w : Walk) : (s.installTree w).cursor = 0 := rfl
@[simp] theorem State.installTree_pkData (w : Walk) : (s.installTree w).pkData = s.pkData := rfl
@[simp] theorem State.installTree_nodeCount (w : Walk) : (s.installTree w).nodeCount = w.k := rfl
@[simp] theorem State.installTree_leafCount (w : Walk) : (s.installTree w).leafCount = w.nleaf := rfl
@[simp] theorem State.installTree_nodes (w : Walk) : (s.installTree w).nodes = linkTree w.t := rfl
@[simp] theorem State.installTree_cwt (w : Walk) : (s.installTree w).cwt = s.cwt := rfl
@[simp] theorem State.installTree_bbuf (w : Walk) : (s.installTree w).bbuf = s.bbuf := rfl
@[simp] theorem State.installTree_ibuf (w : Walk) : (s.installTree w).ibuf = s.ibuf := rfl
@[simp] theorem State.installTree_obuf (w : Walk) : (s.installTree w).obuf = s.obuf := rfl
@[simp] theorem State.installTree_draws (w : Walk) : (s.installTree w).draws = s.draws := rfl
@[simp] theorem State.installTree_engineDelay (w : Walk) : (s.installTree w).engineDelay = s.engineDelay := rfl
@[simp] theorem State.installTree_hostQueue (w : Walk) : (s.installTree w).hostQueue = s.hostQueue := rfl
@[simp] theorem State.installTree_replies (w : Walk) : (s.installTree w).replies = s.replies := rfl

/-! ### `State.popAction` -/

@[simp] theorem State.popAction_cfg (r : List HostAction) : (s.popAction r).cfg = s.cfg := rfl
@[simp] theorem State.popAction_irqEn (r : List HostAction) : (s.popAction r).irqEn = s.irqEn := rfl
@[simp] theorem State.popAction_lastCmd (r : List HostAction) : (s.popAction r).lastCmd = s.lastCmd := rfl
@[simp] theorem State.popAction_busy (r : List HostAction) : (s.popAction r).busy = s.busy := rfl
@[simp] theorem State.popAction_done (r : List HostAction) : (s.popAction r).done = s.done := rfl
@[simp] theorem State.popAction_err (r : List HostAction) : (s.popAction r).err = s.err := rfl
@[simp] theorem State.popAction_treeValid (r : List HostAction) : (s.popAction r).treeValid = s.treeValid := rfl
@[simp] theorem State.popAction_overrun (r : List HostAction) : (s.popAction r).overrun = s.overrun := rfl
@[simp] theorem State.popAction_errCode (r : List HostAction) : (s.popAction r).errCode = s.errCode := rfl
@[simp] theorem State.popAction_errSub (r : List HostAction) : (s.popAction r).errSub = s.errSub := rfl
@[simp] theorem State.popAction_errIndex (r : List HostAction) : (s.popAction r).errIndex = s.errIndex := rfl
@[simp] theorem State.popAction_errSym (r : List HostAction) : (s.popAction r).errSym = s.errSym := rfl
@[simp] theorem State.popAction_result (r : List HostAction) : (s.popAction r).result = s.result := rfl
@[simp] theorem State.popAction_bbufLen (r : List HostAction) : (s.popAction r).bbufLen = s.bbufLen := rfl
@[simp] theorem State.popAction_inLen (r : List HostAction) : (s.popAction r).inLen = s.inLen := rfl
@[simp] theorem State.popAction_outLen (r : List HostAction) : (s.popAction r).outLen = s.outLen := rfl
@[simp] theorem State.popAction_cursor (r : List HostAction) : (s.popAction r).cursor = s.cursor := rfl
@[simp] theorem State.popAction_pkData (r : List HostAction) : (s.popAction r).pkData = s.pkData := rfl
@[simp] theorem State.popAction_nodeCount (r : List HostAction) : (s.popAction r).nodeCount = s.nodeCount := rfl
@[simp] theorem State.popAction_leafCount (r : List HostAction) : (s.popAction r).leafCount = s.leafCount := rfl
@[simp] theorem State.popAction_nodes (r : List HostAction) : (s.popAction r).nodes = s.nodes := rfl
@[simp] theorem State.popAction_cwt (r : List HostAction) : (s.popAction r).cwt = s.cwt := rfl
@[simp] theorem State.popAction_bbuf (r : List HostAction) : (s.popAction r).bbuf = s.bbuf := rfl
@[simp] theorem State.popAction_ibuf (r : List HostAction) : (s.popAction r).ibuf = s.ibuf := rfl
@[simp] theorem State.popAction_obuf (r : List HostAction) : (s.popAction r).obuf = s.obuf := rfl
@[simp] theorem State.popAction_draws (r : List HostAction) : (s.popAction r).draws = s.draws := rfl
@[simp] theorem State.popAction_engineDelay (r : List HostAction) : (s.popAction r).engineDelay = if s.busy then s.engineDelay - 1 else s.engineDelay := rfl
@[simp] theorem State.popAction_hostQueue (r : List HostAction) : (s.popAction r).hostQueue = r := rfl
@[simp] theorem State.popAction_replies (r : List HostAction) : (s.popAction r).replies = s.replies := rfl

/-! ### `State.reply` -/

/-- Everything a reply can do: one word more for the host, and one draw where the word is a free value. -/
theorem State.reply_cases (r : Option Word) :
    (∃ v, r = some v ∧ s.reply r = { s with replies := s.replies ++ [v] }) ∨
    (r = none ∧ ∃ v, s.reply r = { s with replies := s.replies ++ [v], draws := s.draws + 1 }) := by
  cases r with
  | none => exact .inr ⟨rfl, _, rfl⟩
  | some v => exact .inl ⟨v, rfl, rfl⟩

end Sys2Proof.Machine
end

