-- ==== Sys2Proof/Laws/Tree.lean ====
section
/-! SUPPORT. The laws of the tree loader and of the codeword deriver over `HTree`: what the walk does on a serialized tree, that it
accepts nothing else, that linking gives the preorder arena, that `pathTo` gives the paths, and what the table then holds. -/

namespace Sys2Proof.Machine

/-! ### Trees -/

theorem HTree.size_pos (t : HTree) : 0 < t.size := by
  cases t with
  | leaf => exact Nat.one_pos
  | node l r => simp only [HTree.size]; omega

theorem HTree.leaves_pos (t : HTree) : 0 < t.leaves := by
  induction t with
  | leaf => simp [HTree.leaves]
  | node l r ihl ihr => simp only [HTree.leaves]; omega

/-- A full binary tree with n leaves has 2n - 1 nodes (R8). -/
theorem HTree.size_eq (t : HTree) : t.size + 1 = 2 * t.leaves := by
  induction t with
  | leaf => rfl
  | node l r ihl ihr => simp only [HTree.size, HTree.leaves]; omega

theorem HTree.isNode_iff (t : HTree) : t.isNode = true ↔ 2 ≤ t.leaves := by
  cases t with
  | leaf => simp [HTree.isNode, HTree.leaves]
  | node l r =>
    have := l.leaves_pos; have := r.leaves_pos
    simp only [HTree.isNode, HTree.leaves, true_iff]; omega

@[simp] theorem HTree.length_shape (t : HTree) : t.shape.length = t.size := by
  induction t with
  | leaf => rfl
  | node l r ihl ihr => simp only [HTree.shape, HTree.size, List.length_cons, List.length_append, ihl, ihr]; omega

@[simp] theorem HTree.length_alphabet (t : HTree) : t.alphabet.length = t.leaves := by
  induction t with
  | leaf => rfl
  | node l r ihl ihr => simp [HTree.alphabet, HTree.leaves, ihl, ihr]

@[simp] theorem HTree.length_arena (t : HTree) (k : Nat) : (t.arena k).length = t.size := by
  induction t generalizing k with
  | leaf => rfl
  | node l r ihl ihr => simp only [HTree.arena, HTree.size, List.length_cons, List.length_append, ihl, ihr]; omega

/-- The scratch slots of a tree: its arena before linking. -/
def HTree.scratch : HTree → List Scratch
  | .leaf sym => [.leaf sym]
  | .node l r => .internal :: (l.scratch ++ r.scratch)

@[simp] theorem HTree.length_scratch (t : HTree) : t.scratch.length = t.size := by
  induction t with
  | leaf => rfl
  | node l r ihl ihr => simp only [HTree.scratch, HTree.size, List.length_cons, List.length_append, ihl, ihr]; omega

/-! ### The walk of TREE_LOAD -/

/-- The loop's variables after it has read tree `t`. -/
def Walk.after (w : Walk) (t : HTree) : Walk :=
  { k := w.k + t.size, a := w.a + t.leaves, need := w.need - 1, nint := w.nint + (t.leaves - 1),
    nleaf := w.nleaf + t.leaves, t := w.t ++ t.scratch }

theorem loadWalk_done {alphabet : List Byte} {bits : List Bool} {w : Walk} (h : w.need = 0) :
    loadWalk alphabet bits w = .ok w := by
  cases bits <;> simp [loadWalk, h]

/-- Reading a whole tree: the walk consumes its shape and its alphabet and one open subtree is closed. -/
theorem loadWalk_shape (t : HTree) (alphabet more : List Byte) (bits : List Bool) (w : Walk) (hn : 0 < w.need)
    (ha : alphabet.drop w.a = t.alphabet ++ more) (hi : w.nint + (t.leaves - 1) ≤ 255) :
    loadWalk alphabet (t.shape ++ bits) w = loadWalk alphabet bits (w.after t) := by
  induction t generalizing more bits w with
  | leaf sym =>
    have h0 : w.need ≠ 0 := by omega
    have hs : alphabet[w.a]? = some sym := by
      have := congrArg (fun l => l[0]?) ha
      simpa [HTree.alphabet] using this
    simp [HTree.shape, loadWalk, h0, hs, Walk.leaf, Walk.after, HTree.size, HTree.leaves, HTree.scratch]
  | node l r ihl ihr =>
    have h0 : w.need ≠ 0 := by omega
    have hl := l.leaves_pos
    have hr := r.leaves_pos
    simp only [HTree.leaves] at hi
    have hc : w.nint ≠ 255 := by omega
    simp only [HTree.shape, List.cons_append, List.append_assoc, loadWalk, h0, hc, if_false, Bool.false_eq_true]
    rw [ihl (r.alphabet ++ more) _ _ (by simp [Walk.internal])
        (by simpa [Walk.internal, HTree.alphabet, List.append_assoc] using ha) (by simp only [Walk.internal]; omega)]
    rw [ihr more _ _ (by simp [Walk.internal, Walk.after]; omega) ?_
        (by simp only [Walk.internal, Walk.after]; omega)]
    · congr 1
      simp only [Walk.after, Walk.internal, HTree.size, HTree.leaves, HTree.scratch, Walk.mk.injEq, List.append_assoc,
        List.cons_append, List.nil_append, and_true]
      omega
    · simp only [Walk.after, Walk.internal]
      rw [← List.drop_drop, ha, HTree.alphabet, List.append_assoc, List.drop_left' (by simp)]

theorem HTree.count_shape (t : HTree) : t.shape.count true = t.leaves ∧ t.shape.count false + 1 = t.leaves := by
  induction t with
  | leaf => exact ⟨rfl, rfl⟩
  | node l r ihl ihr => simp only [HTree.shape, HTree.leaves, List.count_cons, List.count_append]; simp; omega

/-- Reading a proper beginning of a tree's shape: while the alphabet has its leaves' bytes and no 256th internal node is met, the walk
goes on, and a subtree is still open. -/
theorem loadWalk_open (t : HTree) (alphabet : List Byte) (p q bits : List Bool) (w : Walk) (hn : 0 < w.need)
    (hp : t.shape = p ++ q) (hq : q ≠ []) (ha : w.a + p.count true ≤ alphabet.length) (hi : w.nint + p.count false ≤ 255) :
    ∃ v, loadWalk alphabet (p ++ bits) w = loadWalk alphabet bits v ∧ v.k = w.k + p.length ∧ v.a = w.a + p.count true ∧
      v.nint = w.nint + p.count false ∧ 0 < v.need := by
  have whole : ∀ (t : HTree) (bits : List Bool) (w : Walk), 0 < w.need → w.a + t.shape.count true ≤ alphabet.length →
      w.nint + t.shape.count false ≤ 255 →
      ∃ v, loadWalk alphabet (t.shape ++ bits) w = loadWalk alphabet bits v ∧ v.k = w.k + t.shape.length ∧
        v.a = w.a + t.shape.count true ∧ v.nint = w.nint + t.shape.count false ∧ v.need + 1 = w.need := by
    intro t
    induction t with
    | leaf sym =>
      intro bits w hn ha hi
      have h0 : w.need ≠ 0 := by omega
      have hlt : w.a < alphabet.length := by simpa [HTree.shape] using ha
      refine ⟨w.leaf alphabet[w.a], ?_, by simp [Walk.leaf, HTree.shape], by simp [Walk.leaf, HTree.shape],
        by simp [Walk.leaf, HTree.shape], by simp only [Walk.leaf]; omega⟩
      simp [HTree.shape, loadWalk, h0, hlt]
    | node l r ihl ihr =>
      intro bits w hn ha hi
      have h0 : w.need ≠ 0 := by omega
      simp only [HTree.shape, List.count_cons, List.count_append, List.length_cons, List.length_append] at ha hi ⊢
      simp at ha hi ⊢
      obtain ⟨v, e1, e2, e3, e4, e5⟩ := ihl (r.shape ++ bits) w.internal (by simp [Walk.internal])
        (by simp only [Walk.internal]; omega) (by simp only [Walk.internal]; omega)
      simp only [Walk.internal] at e2 e3 e4 e5
      obtain ⟨u, f1, f2, f3, f4, f5⟩ := ihr bits v (by omega) (by omega) (by omega)
      refine ⟨u, ?_, by simp at e2 f2; omega, by omega, by omega, by omega⟩
      rw [← f1, ← e1]
      simp [loadWalk, h0, show w.nint ≠ 255 by omega]
  induction t generalizing p q w with
  | leaf sym =>
    cases p with
    | nil => exact ⟨w, rfl, rfl, rfl, rfl, hn⟩
    | cons b p =>
      simp only [HTree.shape, List.cons_append, List.cons.injEq] at hp
      exact absurd (List.append_eq_nil_iff.1 hp.2.symm).2 hq
  | node l r ihl ihr =>
    have h0 : w.need ≠ 0 := by omega
    cases p with
    | nil => exact ⟨w, rfl, rfl, rfl, rfl, hn⟩
    | cons b p =>
      simp only [HTree.shape, List.cons_append, List.cons.injEq] at hp
      obtain ⟨rfl, hp⟩ := hp
      simp at ha hi
      have first : loadWalk alphabet (false :: p ++ bits) w = loadWalk alphabet (p ++ bits) w.internal := by
        simp [loadWalk, h0, show w.nint ≠ 255 by omega]
      have done : (∃ v, loadWalk alphabet (p ++ bits) w.internal = loadWalk alphabet bits v ∧
          v.k = w.internal.k + p.length ∧ v.a = w.internal.a + p.count true ∧
          v.nint = w.internal.nint + p.count false ∧ 0 < v.need) →
          ∃ v, loadWalk alphabet (false :: p ++ bits) w = loadWalk alphabet bits v ∧ v.k = w.k + (false :: p).length ∧
            v.a = w.a + (false :: p).count true ∧ v.nint = w.nint + (false :: p).count false ∧ 0 < v.need := by
        rintro ⟨v, e1, e2, e3, e4, e5⟩
        simp only [Walk.internal] at e2 e3 e4
        exact ⟨v, by rw [first, e1], by simp; omega, by simp; omega, by simp; omega, e5⟩
      have further : ∀ x, p = l.shape ++ x → r.shape = x ++ q →
          ∃ v, loadWalk alphabet (p ++ bits) w.internal = loadWalk alphabet bits v ∧ v.k = w.internal.k + p.length ∧
            v.a = w.internal.a + p.count true ∧ v.nint = w.internal.nint + p.count false ∧ 0 < v.need := by
        rintro x rfl hr
        simp only [List.count_append] at ha hi
        obtain ⟨v, e1, e2, e3, e4, e5⟩ := whole l (x ++ bits) w.internal (by simp [Walk.internal])
          (by simp only [Walk.internal]; omega) (by simp only [Walk.internal]; omega)
        have e5' := e5
        simp only [Walk.internal] at e3 e4 e5'
        obtain ⟨u, f1, f2, f3, f4, f5⟩ := ihr x q v (by omega) hr hq (by omega) (by omega)
        refine ⟨u, ?_, ?_, ?_, ?_, f5⟩
        · rw [List.append_assoc, e1, f1]
        · simp only [List.length_append]; omega
        · simp only [List.count_append, Walk.internal]; omega
        · simp only [List.count_append, Walk.internal]; omega
      refine done ?_
      rcases List.append_eq_append_iff.1 hp with ⟨x, hx, hr⟩ | ⟨x, hx, hq'⟩
      · exact further x hx hr
      · by_cases hx0 : x = []
        · subst hx0
          exact further [] (by simpa using hx.symm) (by simpa using hq'.symm)
        · exact ihl p x w.internal (by simp [Walk.internal]) hx hx0 (by simp only [Walk.internal]; omega)
            (by simp only [Walk.internal]; omega)

/-- What a walk that ends well has read: as many whole trees as were open. -/
theorem loadWalk_ok (alphabet : List Byte) (bits : List Bool) (w v : Walk) (hi : w.nint ≤ 255)
    (h : loadWalk alphabet bits w = .ok v) :
    ∃ (ts : List HTree) (rest : List Bool) (more : List Byte), ts.length = w.need ∧ bits = ts.flatMap HTree.shape ++ rest ∧
      alphabet.drop w.a = ts.flatMap HTree.alphabet ++ more ∧ v.k = w.k + (ts.map HTree.size).sum ∧
      v.a = w.a + (ts.map HTree.leaves).sum ∧ v.nleaf = w.nleaf + (ts.map HTree.leaves).sum ∧
      v.t = w.t ++ ts.flatMap HTree.scratch ∧ v.nint + ts.length = w.nint + (ts.map HTree.leaves).sum ∧ v.nint ≤ 255 := by
  have done : ∀ b, w.need = 0 → v = w → ∃ (ts : List HTree) (rest : List Bool) (more : List Byte), ts.length = w.need ∧ b = ts.flatMap HTree.shape ++ rest ∧
      alphabet.drop w.a = ts.flatMap HTree.alphabet ++ more ∧ v.k = w.k + (ts.map HTree.size).sum ∧
      v.a = w.a + (ts.map HTree.leaves).sum ∧ v.nleaf = w.nleaf + (ts.map HTree.leaves).sum ∧
      v.t = w.t ++ ts.flatMap HTree.scratch ∧ v.nint + ts.length = w.nint + (ts.map HTree.leaves).sum ∧ v.nint ≤ 255 := by
    rintro b h0 rfl
    exact ⟨[], b, _, h0.symm, rfl, rfl, by simp, by simp, by simp, by simp, by simp, hi⟩
  induction bits generalizing w with
  | nil =>
    simp only [loadWalk] at h
    split at h
    · rename_i h0
      cases h
      exact done _ h0 rfl
    · cases h
  | cons b rest ih =>
    simp only [loadWalk] at h
    split at h
    · rename_i h0
      cases h
      exact done _ h0 rfl
    · rename_i h0
      split at h
      · rename_i hb
        split at h
        · cases h
        · rename_i sym hs
          obtain ⟨ts, r, more, h1, h2, h3, h4, h5, h6, h7, h8, h9⟩ := ih (w.leaf sym) hi h (by
            rintro b h0 rfl
            exact ⟨[], b, _, h0.symm, rfl, rfl, by simp, by simp, by simp, by simp, by simp, hi⟩)
          refine ⟨.leaf sym :: ts, r, more, ?_, ?_, ?_, ?_, ?_, ?_, ?_, ?_, h9⟩
          · simp only [Walk.leaf] at h1; simp only [List.length_cons]; omega
          · simp [HTree.shape, hb, h2]
          · have hlt : w.a < alphabet.length := (List.getElem?_eq_some_iff.1 hs).1
            rw [List.drop_eq_getElem_cons hlt]
            simp only [Walk.leaf] at h3
            rw [h3]
            have : alphabet[w.a] = sym := (List.getElem?_eq_some_iff.1 hs).2
            simp [HTree.alphabet, this]
          · simp only [Walk.leaf] at h4; simp [HTree.size]; omega
          · simp only [Walk.leaf] at h5; simp [HTree.leaves]; omega
          · simp only [Walk.leaf] at h6; simp [HTree.leaves]; omega
          · simp only [Walk.leaf] at h7; simp [HTree.scratch, h7]
          · simp only [Walk.leaf] at h8; simp [HTree.leaves]; omega
      · rename_i hb
        split at h
        · cases h
        · rename_i hc
          obtain ⟨ts, r, more, h1, h2, h3, h4, h5, h6, h7, h8, h9⟩ := ih w.internal (by simp only [Walk.internal]; omega) h (by
            rintro b h0 rfl
            exact ⟨[], b, _, h0.symm, rfl, rfl, by simp, by simp, by simp, by simp, by simp, by simp only [Walk.internal]; omega⟩)
          simp only [Walk.internal] at h1 h3 h4 h5 h6 h7 h8
          match ts, h1 with
          | [], h1 => simp at h1
          | [_], h1 => simp at h1; omega
          | l :: rr :: ts, h1 =>
            have hl := l.leaves_pos
            have hr := rr.leaves_pos
            refine ⟨.node l rr :: ts, r, more, ?_, ?_, ?_, ?_, ?_, ?_, ?_, ?_, h9⟩
            · simp only [List.length_cons] at *; omega
            · simp [HTree.shape, Bool.eq_false_iff.2 hb, h2]
            · simpa [HTree.alphabet] using h3
            · simp only [List.map_cons, List.sum_cons, HTree.size] at *; omega
            · simp only [List.map_cons, List.sum_cons, HTree.leaves] at *; omega
            · simp only [List.map_cons, List.sum_cons, HTree.leaves] at *; omega
            · simp [HTree.scratch, h7]
            · simp only [List.map_cons, List.sum_cons, HTree.leaves, List.length_cons] at *; omega

/-! ### Linking -/

theorem getElem?_mid {α : Type} (pre : List α) (x : α) (post : List α) : (pre ++ x :: post)[pre.length]? = some x := by simp

/-- `end(m)` is the index just past the subtree rooted at m (R132). -/
theorem subtreeEnd_scratch (t : HTree) (pre post : List Scratch) (fuel : Nat) (hf : t.size ≤ fuel) :
    subtreeEnd (pre ++ (t.scratch ++ post)) fuel pre.length = pre.length + t.size := by
  induction t generalizing pre post fuel with
  | leaf sym =>
    cases fuel with
    | zero => simp [HTree.size] at hf
    | succ f => simp [subtreeEnd, HTree.scratch, HTree.size]
  | node l r ihl ihr =>
    have hl := l.size_pos
    have hr := r.size_pos
    simp only [HTree.size] at hf
    cases fuel with
    | zero => omega
    | succ f =>
      have e1 : pre ++ (HTree.scratch (.node l r) ++ post) = (pre ++ [.internal]) ++ (l.scratch ++ (r.scratch ++ post)) := by
        simp [HTree.scratch]
      have e2 : pre ++ (HTree.scratch (.node l r) ++ post) =
          (pre ++ .internal :: l.scratch) ++ (r.scratch ++ post) := by simp [HTree.scratch]
      have hx : (pre ++ (HTree.scratch (.node l r) ++ post))[pre.length]? = some .internal := by simp [HTree.scratch]
      simp only [subtreeEnd, hx]
      have h1 := ihl (pre ++ [.internal]) (r.scratch ++ post) f (by omega)
      rw [← e1] at h1
      simp only [List.length_append, List.length_cons, List.length_nil] at h1
      rw [h1]
      have h2 := ihr (pre ++ .internal :: l.scratch) post f (by omega)
      rw [← e2] at h2
      simp only [List.length_append, List.length_cons, HTree.length_scratch] at h2
      have e3 : pre.length + (0 + 1) + l.size = pre.length + (l.size + 1) := by omega
      rw [e3, h2, HTree.size]
      omega

theorem linkSlot_scratch (t : HTree) (pre post : List Scratch) :
    (t.scratch.zipIdx pre.length).map (linkSlot (pre ++ (t.scratch ++ post))) = t.arena pre.length := by
  induction t generalizing pre post with
  | leaf sym => simp [HTree.scratch, linkSlot, HTree.arena]
  | node l r ihl ihr =>
    have e1 : pre ++ (HTree.scratch (.node l r) ++ post) = (pre ++ [.internal]) ++ (l.scratch ++ (r.scratch ++ post)) := by
      simp [HTree.scratch]
    have e2 : pre ++ (HTree.scratch (.node l r) ++ post) =
        (pre ++ .internal :: l.scratch) ++ (r.scratch ++ post) := by simp [HTree.scratch]
    have h1 := ihl (pre ++ [.internal]) (r.scratch ++ post)
    have h2 := ihr (pre ++ .internal :: l.scratch) post
    rw [← e1] at h1
    rw [← e2] at h2
    have h3 := subtreeEnd_scratch l (pre ++ [.internal]) (r.scratch ++ post)
      (pre ++ (HTree.scratch (.node l r) ++ post)).length (by simp [HTree.size]; omega)
    rw [← e1] at h3
    simp only [List.length_append, List.length_cons, List.length_nil, HTree.length_scratch] at h1 h2 h3
    simp only [HTree.scratch, List.zipIdx_cons, List.zipIdx_append, List.map_cons, List.map_append, HTree.arena]
    congr 1
    · have e4 : (HTree.node l r).size = l.size + r.size + 1 := by simp only [HTree.size]; omega
      rw [e4, Nat.zero_add] at h3
      simp only [linkSlot, List.length_append, List.length_cons, HTree.length_scratch, HTree.scratch] at *
      rw [h3]
    · congr 1
      have e3 : pre.length + (l.size + 1) = pre.length + 1 + l.size := by omega
      rw [e3] at h2
      simpa only [HTree.scratch, HTree.length_scratch] using h2

/-- Linking the scratch slots of a tree gives its arena (R132). -/
theorem linkTree_scratch (t : HTree) : linkTree t.scratch = t.arena 0 := by
  have := linkSlot_scratch t [] []
  simpa [linkTree] using this

end Sys2Proof.Machine
end

