-- ==== Sys2Proof/Laws/Derive.lean ====
section
/-! SUPPORT. The laws of CW_DERIVE over `HTree`: subtrees and their nodes in the arena, the parent search, `pathTo` gives the path of
R136, and what the table holds after all leaves are recorded. -/

namespace Sys2Proof.Machine

/-! ### Subtrees by preorder index -/

/-- The path from the root to the node of preorder index `k`. -/
def HTree.pathAt : HTree → Nat → Option (List Bool)
  | _, 0 => some []
  | .leaf _, _ + 1 => none
  | .node l r, k + 1 =>
    if k < l.size then (l.pathAt k).map (false :: ·) else (r.pathAt (k - l.size)).map (true :: ·)

/-- The arena's node for the root of a tree at index `k`. -/
def HTree.rootNode : HTree → Nat → Node
  | .leaf sym, _ => .leaf sym
  | .node l _, k => .internal (k + 1) (k + 1 + l.size)

theorem HTree.sub_zero (t : HTree) : t.sub 0 = some t := by cases t <;> rfl

theorem HTree.sub_size {t u : HTree} {k : Nat} (h : t.sub k = some u) : k + u.size ≤ t.size := by
  induction t generalizing k with
  | leaf sym =>
    cases k with
    | zero => cases h; simp
    | succ k => cases h
  | node l r ihl ihr =>
    cases k with
    | zero => cases h; simp
    | succ k =>
      simp only [HTree.sub] at h
      simp only [HTree.size]
      split at h
      · have := ihl h; omega
      · have := ihr h; omega

theorem HTree.sub_children {t l r : HTree} {k : Nat} (h : t.sub k = some (.node l r)) :
    t.sub (k + 1) = some l ∧ t.sub (k + 1 + l.size) = some r := by
  induction t generalizing k with
  | leaf sym => cases k <;> cases h
  | node a b iha ihb =>
    cases k with
    | zero =>
      cases h
      have := l.size_pos
      refine ⟨by simp [HTree.sub, this, HTree.sub_zero], ?_⟩
      have e : 0 + 1 + l.size = l.size + 1 := by omega
      rw [e]
      simp [HTree.sub, HTree.sub_zero]
    | succ k =>
      simp only [HTree.sub] at h ⊢
      split at h
      · rename_i hk
        have hs := HTree.sub_size h
        have hl := l.size_pos
        have hr := r.size_pos
        simp only [HTree.size] at hs
        obtain ⟨h1, h2⟩ := iha h
        have e : k + 1 + 1 + l.size = (k + 1 + l.size) + 1 := by omega
        rw [e]
        simp only [HTree.sub]
        rw [if_pos (by omega), if_pos (by omega)]
        exact ⟨h1, h2⟩
      · rename_i hk
        obtain ⟨h1, h2⟩ := ihb h
        have e : k + 1 + 1 + l.size = (k + 1 + l.size) + 1 := by omega
        rw [e]
        simp only [HTree.sub]
        rw [if_neg (by omega), if_neg (by omega)]
        have e1 : k + 1 - a.size = k - a.size + 1 := by omega
        have e2 : k + 1 + l.size - a.size = k - a.size + 1 + l.size := by omega
        rw [e1, e2]
        exact ⟨h1, h2⟩

/-- The arena's slot of a subtree holds the subtree's root. -/
theorem HTree.getElem?_arena {t u : HTree} {k : Nat} (b : Nat) (h : t.sub k = some u) :
    (t.arena b)[k]? = some (u.rootNode (b + k)) := by
  induction t generalizing k b with
  | leaf sym =>
    cases k with
    | zero => cases h; rfl
    | succ k => cases h
  | node l r ihl ihr =>
    cases k with
    | zero => cases h; simp [HTree.arena, HTree.rootNode]
    | succ k =>
      simp only [HTree.sub] at h
      simp only [HTree.arena, List.getElem?_cons_succ]
      split at h
      · rename_i hk
        rw [List.getElem?_append_left (by simpa using hk), ihl (b + 1) h]
        have e : b + 1 + k = b + (k + 1) := by omega
        rw [e]
      · rename_i hk
        rw [List.getElem?_append_right (by simpa using hk), HTree.length_arena, ihr (b + 1 + l.size) h]
        have e : b + 1 + l.size + (k - l.size) = b + (k + 1) := by omega
        rw [e]

theorem HTree.sub_of_lt (t : HTree) (k : Nat) (h : k < t.size) : ∃ u, t.sub k = some u := by
  induction t generalizing k with
  | leaf sym =>
    simp only [HTree.size] at h
    have : k = 0 := by omega
    subst this
    exact ⟨_, rfl⟩
  | node l r ihl ihr =>
    cases k with
    | zero => exact ⟨_, rfl⟩
    | succ k =>
      simp only [HTree.size] at h
      simp only [HTree.sub]
      split
      · rename_i hk; exact ihl k hk
      · exact ihr _ (by omega)

/-! ### The parent search and paths -/

/-- The children's indices of a tree at index `k` lie above `k` and below its end. -/
theorem parentFrom_skip (t : HTree) (c k : Nat) (post : List Node) (h : c ≤ k ∨ k + t.size ≤ c) :
    parentFrom c k (t.arena k ++ post) = parentFrom c (k + t.size) post := by
  induction t generalizing k post with
  | leaf sym => simp [HTree.arena, parentFrom, HTree.size]
  | node l r ihl ihr =>
    have hl := l.size_pos
    have hr := r.size_pos
    simp only [HTree.size] at h
    have h1 : k + 1 ≠ c := by omega
    have h2 : k + 1 + l.size ≠ c := by omega
    simp only [HTree.arena, List.cons_append, List.append_assoc, parentFrom, h1, h2, if_false]
    rw [ihl (k + 1) _ (by omega), ihr (k + 1 + l.size) _ (by omega), HTree.size]
    congr 1
    omega

/-- The parent of a node inside a tree at index `k`, and the edge to it. -/
theorem parentFrom_arena (t : HTree) (c k : Nat) (post : List Node) (h0 : 0 < c) (hc : c < t.size) :
    ∃ j b p, parentFrom (k + c) k (t.arena k ++ post) = some (k + j, b) ∧ j < c ∧ t.pathAt j = some p ∧
      t.pathAt c = some (p ++ [b]) := by
  induction t generalizing c k post with
  | leaf sym => simp only [HTree.size] at hc; omega
  | node l r ihl ihr =>
    have hl := l.size_pos
    have hr := r.size_pos
    simp only [HTree.size] at hc
    by_cases c1 : c = 1
    · subst c1
      exact ⟨0, false, [], by simp [HTree.arena, parentFrom], by omega, rfl, by
        cases l <;> simp [HTree.pathAt, HTree.size]⟩
    · by_cases c2 : c = 1 + l.size
      · subst c2
        refine ⟨0, true, [], ?_, by omega, rfl, ?_⟩
        · have h1 : k + 1 ≠ k + (1 + l.size) := by omega
          have h2 : k + 1 + l.size = k + (1 + l.size) := by omega
          simp only [HTree.arena, List.cons_append, parentFrom, h1, h2, if_false, if_true]
          rfl
        · have e : 1 + l.size = l.size + 1 := by omega
          rw [e]
          cases r <;> simp [HTree.pathAt]
      · have h1 : k + 1 ≠ k + c := by omega
        have h2 : k + 1 + l.size ≠ k + c := by omega
        obtain ⟨d, rfl⟩ : ∃ d, c = d + 1 := ⟨c - 1, by omega⟩
        by_cases hlt : d < l.size
        · obtain ⟨j, b, p, e1, e2, e3, e4⟩ := ihl d (k + 1) (r.arena (k + 1 + l.size) ++ post) (by omega) hlt
          refine ⟨j + 1, b, false :: p, ?_, by omega, ?_, ?_⟩
          · simp only [HTree.arena, List.cons_append, List.append_assoc, parentFrom, h1, h2, if_false]
            have e : k + (d + 1) = k + 1 + d := by omega
            rw [e, e1]
            congr 2; omega
          · have : j < l.size := by omega
            simp [HTree.pathAt, this, e3]
          · simp [HTree.pathAt, hlt, e4]
        · obtain ⟨j, b, p, e1, e2, e3, e4⟩ := ihr (d - l.size) (k + 1 + l.size) post (by omega) (by omega)
          refine ⟨j + l.size + 1, b, true :: p, ?_, by omega, ?_, ?_⟩
          · simp only [HTree.arena, List.cons_append, List.append_assoc, parentFrom, h1, h2, if_false]
            rw [parentFrom_skip l _ _ _ (by omega)]
            have e : k + (d + 1) = k + 1 + l.size + (d - l.size) := by omega
            rw [e, e1]
            congr 2; omega
          · have : ¬ j + l.size < l.size := by omega
            have e : j + l.size - l.size = j := by omega
            simp [HTree.pathAt, e3]
          · simp [HTree.pathAt, hlt, e4]

/-- `path(k)` of R136 is the path of the tree. -/
theorem pathTo_arena (t : HTree) (fuel k : Nat) (hf : k ≤ fuel) (hk : k < t.size) :
    pathTo (t.arena 0) fuel k = t.pathAt k := by
  induction fuel generalizing k with
  | zero =>
    have : k = 0 := by omega
    subst this
    cases t <;> rfl
  | succ f ih =>
    cases k with
    | zero => cases t <;> rfl
    | succ k =>
      obtain ⟨j, b, p, e1, e2, e3, e4⟩ := parentFrom_arena t (k + 1) 0 [] (by omega) hk
      simp only [Nat.zero_add, List.append_nil] at e1
      simp only [pathTo, e1]
      rw [ih j (by omega) (by omega), e3, e4]
      rfl

/-! ### The table -/

/-- The table after the codewords of a list of leaves are recorded in order. -/
def Memory.setCodewords (m : Memory) (xs : List (Byte × List Bool)) : Memory :=
  xs.foldl (fun m x => m.setCodeword x.1 x.2) m

/-- The loop of CW_DERIVE over the part of the arena that holds subtree `u` at path `p`. -/
theorem deriveFrom_arena (t u : HTree) (k : Nat) (p : List Bool) (rest : List Node) (m : Memory)
    (hk : k + u.size ≤ t.size) (hp : ∀ c < u.size, t.pathAt (k + c) = (u.pathAt c).map (p ++ ·)) :
    deriveFrom (t.arena 0) k (u.arena k ++ rest) m =
      deriveFrom (t.arena 0) (k + u.size) rest (m.setCodewords (u.paths.map fun x => (x.1, p ++ x.2))) := by
  induction u generalizing k p rest m with
  | leaf sym =>
    have h := hp 0 (by simp [HTree.size])
    simp only [HTree.size] at hk
    simp only [HTree.arena, List.cons_append, List.nil_append, deriveFrom]
    rw [pathTo_arena t _ k (by simp; omega) (by omega)]
    simp only [Nat.add_zero] at h
    simp [h, HTree.pathAt, HTree.size, HTree.paths, Memory.setCodewords]
  | node l r ihl ihr =>
    have hl := l.size_pos
    have hr := r.size_pos
    simp only [HTree.size] at hk
    simp only [HTree.arena, List.cons_append, List.append_assoc, deriveFrom]
    rw [ihl (k + 1) (p ++ [false]) _ m (by omega) ?_, ihr (k + 1 + l.size) (p ++ [true]) _ _ (by omega) ?_]
    · have e : k + 1 + l.size + r.size = k + (HTree.node l r).size := by simp only [HTree.size]; omega
      rw [e]
      congr 1
      simp [HTree.paths, Memory.setCodewords, List.foldl_map]
    · intro c hc
      have h := hp (c + l.size + 1) (by simp only [HTree.size]; omega)
      have e : k + 1 + l.size + c = k + (c + l.size + 1) := by omega
      have hn : ¬ c + l.size < l.size := by omega
      have e2 : c + l.size - l.size = c := by omega
      rw [e, h]
      simp only [HTree.pathAt, hn, e2, if_false, Option.map_map]
      congr 1
      funext x
      simp
    · intro c hc
      have h := hp (c + 1) (by simp only [HTree.size]; omega)
      have e : k + 1 + c = k + (c + 1) := by omega
      rw [e, h]
      simp only [HTree.pathAt, hc, if_true, Option.map_map]
      congr 1
      funext x
      simp

/-- The loop of CW_DERIVE over a whole arena records the tree's paths in preorder. -/
theorem deriveFrom_tree (t : HTree) (m : Memory) :
    deriveFrom (t.arena 0) 0 (t.arena 0) m = some (m.setCodewords t.paths) := by
  have h := deriveFrom_arena t t 0 [] [] m (by omega) (by
    intro c _
    simp)
  simpa [deriveFrom] using h

/-- The length of an entry after a list of codewords is recorded: the last of its symbol's. -/
theorem Memory.cwLen_setCodewords (xs : List (Byte × List Bool)) (m : Memory) (sym : Byte)
    (h : ∀ x ∈ xs, x.2.length < 256) :
    (m.setCodewords xs).cwLen sym =
      match xs.reverse.find? (fun x => x.1 == sym) with
      | some x => x.2.length
      | none => m.cwLen sym := by
  induction xs using List.reverseRecOn with
  | nil => simp [Memory.setCodewords]
  | append_singleton xs x ih =>
    have ih := ih fun y hy => h y (by simp [hy])
    have hx := h x (by simp)
    simp only [Memory.setCodewords, List.foldl_append, List.foldl_cons, List.foldl_nil, List.reverse_append,
      List.reverse_cons, List.reverse_nil, List.nil_append, List.cons_append, List.find?_cons] at ih ⊢
    rw [Memory.cwLen_setCodeword _ _ _ _ hx]
    by_cases hs : sym = x.1
    · simp [hs]
    · have : (x.1 == sym) = false := by simpa using fun e => hs e.symm
      simp only [if_neg hs, this]
      exact ih

/-- The code bits of an entry after a list of codewords is recorded: those of its symbol's last codeword. -/
theorem Memory.cwBit_setCodewords (xs : List (Byte × List Bool)) (m : Memory) (sym : Byte) (k : Nat) (b : Bool)
    (x : Byte × List Bool) (h : ∀ x ∈ xs, x.2.length < 256) (hx : xs.reverse.find? (fun x => x.1 == sym) = some x)
    (hb : x.2[k]? = some b) : (m.setCodewords xs).cwBit sym k = b := by
  induction xs using List.reverseRecOn with
  | nil => simp at hx
  | append_singleton xs y ih =>
    have hy := h y (by simp)
    simp only [List.reverse_append, List.reverse_cons, List.reverse_nil, List.nil_append, List.cons_append,
      List.find?_cons] at hx
    have hk : k < x.2.length := (List.getElem?_eq_some_iff.1 hb).1
    simp only [Memory.setCodewords, List.foldl_append, List.foldl_cons, List.foldl_nil]
    by_cases hs : y.1 == sym
    · rw [hs] at hx
      cases hx
      rw [Memory.cwBit_setCodeword _ _ _ _ _ (by omega) (by omega), if_pos (by simpa using (beq_iff_eq.1 hs).symm), hb]
      rfl
    · have hs' : (y.1 == sym) = false := by simpa using hs
      rw [hs'] at hx
      have hlen : x.2.length < 256 := h x (by
        have := List.mem_of_find?_eq_some hx
        simp at this
        simp [this])
      rw [Memory.cwBit_setCodeword _ _ _ _ _ (by omega) (by omega), if_neg (fun e => hs (beq_iff_eq.2 e.symm))]
      exact ih (fun z hz => h z (by simp [hz])) hx

/-- Recording codewords leaves every code bit alone that none of its symbol's codewords reaches. -/
theorem Memory.cwBit_setCodewords_beyond (xs : List (Byte × List Bool)) (m : Memory) (sym : Byte) (k : Nat) (hk : k < 256)
    (h : ∀ x ∈ xs, x.2.length < 256) (hx : ∀ x ∈ xs, x.1 = sym → x.2.length ≤ k) :
    (m.setCodewords xs).cwBit sym k = m.cwBit sym k := by
  induction xs generalizing m with
  | nil => rfl
  | cons x xs ih =>
    have h1 := h x (by simp)
    rw [show m.setCodewords (x :: xs) = (m.setCodeword x.1 x.2).setCodewords xs from rfl,
      ih _ (fun y hy => h y (by simp [hy])) (fun y hy => hx y (by simp [hy])),
      Memory.cwBit_setCodeword _ _ _ _ _ hk (by omega)]
    split
    · rename_i hs
      subst hs
      rw [List.getElem?_eq_none (hx x (by simp) rfl)]
      rfl
    · rfl

theorem Memory.wf_setCodewords (xs : List (Byte × List Bool)) {m : Memory} (h : m.wf) : (m.setCodewords xs).wf := by
  induction xs generalizing m with
  | nil => exact h
  | cons x xs ih => exact ih (Memory.wf_setCodeword _ _ h)

theorem Memory.within_setCodewords (xs : List (Byte × List Bool)) {m : Memory} (h : m.Within 0x4000)
    (hx : ∀ x ∈ xs, x.2.length < 256) : (m.setCodewords xs).Within 0x4000 := by
  induction xs generalizing m with
  | nil => exact h
  | cons x xs ih =>
    exact ih (Memory.within_setCodeword _ _ h (le_of_lt (hx x (by simp)))) fun y hy => hx y (by simp [hy])

/-! ### Paths -/

/-- A path is shorter than the number of leaves. -/
theorem HTree.length_path {t : HTree} {x : Byte × List Bool} (h : x ∈ t.paths) : x.2.length + 1 ≤ t.leaves := by
  induction t generalizing x with
  | leaf sym => simp [HTree.paths] at h; simp [h, HTree.leaves]
  | node l r ihl ihr =>
    have hl := l.leaves_pos
    have hr := r.leaves_pos
    simp only [HTree.paths, List.mem_append, List.mem_map] at h
    simp only [HTree.leaves]
    rcases h with ⟨y, hy, rfl⟩ | ⟨y, hy, rfl⟩
    · have := ihl hy; simp only [List.length_cons]; omega
    · have := ihr hy; simp only [List.length_cons]; omega

theorem HTree.path_ne_nil {t : HTree} {x : Byte × List Bool} (ht : t.isNode = true) (h : x ∈ t.paths) : x.2 ≠ [] := by
  cases t with
  | leaf => cases ht
  | node l r =>
    simp only [HTree.paths, List.mem_append, List.mem_map] at h
    rcases h with ⟨y, _, rfl⟩ | ⟨y, _, rfl⟩ <;> simp

theorem HTree.map_fst_paths (t : HTree) : t.paths.map Prod.fst = t.alphabet := by
  induction t with
  | leaf => rfl
  | node l r ihl ihr => simp [HTree.paths, HTree.alphabet, Function.comp_def, ← ihl, ← ihr]

/-- A leaf's path is a prefix of no other leaf's. -/
theorem HTree.path_prefix {t : HTree} {x y : Byte × List Bool} (hx : x ∈ t.paths) (hy : y ∈ t.paths)
    (h : x.2 <+: y.2) : x = y := by
  induction t generalizing x y with
  | leaf sym => simp [HTree.paths] at hx hy; rw [hx, hy]
  | node l r ihl ihr =>
    simp only [HTree.paths, List.mem_append, List.mem_map] at hx hy
    rcases hx with ⟨a, ha, rfl⟩ | ⟨a, ha, rfl⟩ <;> rcases hy with ⟨b, hb, rfl⟩ | ⟨b, hb, rfl⟩
    · simp only [List.cons_prefix_cons, true_and] at h
      rw [ihl ha hb h]
    · simp at h
    · simp at h
    · simp only [List.cons_prefix_cons, true_and] at h
      rw [ihr ha hb h]

/-- The codeword of a symbol is a path of a leaf that carries it, and a symbol has one exactly when some leaf carries it. -/
theorem HTree.codeword_some {t : HTree} {sym : Byte} {p : List Bool} (h : t.codeword sym = some p) : (sym, p) ∈ t.paths := by
  simp only [HTree.codeword, Option.map_eq_some_iff] at h
  obtain ⟨x, hx, rfl⟩ := h
  have h1 := List.mem_of_find?_eq_some hx
  have h2 := List.find?_some hx
  simp only [beq_iff_eq] at h2
  subst h2
  simpa using h1

theorem HTree.codeword_isSome {t : HTree} {sym : Byte} (h : sym ∈ t.alphabet) : ∃ p, t.codeword sym = some p := by
  rw [← HTree.map_fst_paths] at h
  obtain ⟨x, hx, rfl⟩ := List.mem_map.1 h
  simp only [HTree.codeword, Option.map_eq_some_iff]
  cases hf : t.paths.reverse.find? (fun y => y.1 == x.1) with
  | none =>
    have := List.find?_eq_none.1 hf x (by simpa using hx)
    simp at this
  | some y => exact ⟨y.2, y, rfl, rfl⟩

/-- Walking a leaf's path from an internal subtree emits its symbol and goes on from the root. -/
theorem HTree.walk_path (root cur : HTree) (x : Byte × List Bool) (rest : List Bool) (hc : cur.isNode = true)
    (hx : x ∈ cur.paths) :
    root.walk cur (x.2 ++ rest) = (x.1 :: (root.walk root rest).1, (root.walk root rest).2) := by
  induction cur generalizing x with
  | leaf => cases hc
  | node l r ihl ihr =>
    simp only [HTree.paths, List.mem_append, List.mem_map] at hx
    rcases hx with ⟨y, hy, rfl⟩ | ⟨y, hy, rfl⟩
    · cases l with
      | leaf sym => simp [HTree.paths] at hy; simp [HTree.walk, hy]
      | node a b => simpa [HTree.walk] using ihl y rfl hy
    · cases r with
      | leaf sym => simp [HTree.paths] at hy; simp [HTree.walk, hy]
      | node a b => simpa [HTree.walk] using ihr y rfl hy

/-- A walk from an internal subtree of an internal root ends at an internal subtree. -/
theorem HTree.walk_isNode (root cur : HTree) (bits : List Bool) (hr : root.isNode = true) (hc : cur.isNode = true) :
    (root.walk cur bits).2.isNode = true := by
  induction bits generalizing cur with
  | nil => simpa [HTree.walk] using hc
  | cons b rest ih =>
    cases cur with
    | leaf => cases hc
    | node l r =>
      simp only [HTree.walk]
      split
      · exact ih root hr
      · exact ih _ rfl

/-- A walk emits at most one symbol a bit. -/
theorem HTree.length_walk (root cur : HTree) (bits : List Bool) : (root.walk cur bits).1.length ≤ bits.length := by
  induction bits generalizing cur with
  | nil => simp [HTree.walk]
  | cons b rest ih =>
    cases cur with
    | leaf => simp only [HTree.walk, List.length_cons]; have := ih root; omega
    | node l r =>
      simp only [HTree.walk]
      split
      · have := ih root
        simp only [List.length_cons]; omega
      · rename_i l' r' _
        have := ih (.node l' r')
        simp only [List.length_cons]; omega

end Sys2Proof.Machine
end

