-- ==== Sys2Proof/Laws/Block.lean ====
section
/-! SUPPORT. The laws of the block encoder and the block decoder: appends compose, what the encoder's loop does up to a failing byte,
and the decoder's loop as a walk that yields a cursor and the emitted bytes. -/

namespace Sys2Proof.Machine

/-! ### The encoder -/

theorem Memory.setBits_append (a b : List Bool) (m : Memory) (i : Nat) :
    m.setBits i (a ++ b) = (m.setBits i a).setBits (i + a.length) b := by
  induction a generalizing m i with
  | nil => rfl
  | cons x a ih =>
    simp only [List.cons_append, Memory.setBits, ih, List.length_cons]
    congr 1
    omega

theorem State.appendBits_nil (s : State) : s.appendBits [] = s := rfl

theorem State.appendBits_appendBits (s : State) (a b : List Bool) :
    (s.appendBits a).appendBits b = s.appendBits (a ++ b) := by
  simp [State.appendBits, Memory.setBits_append, Nat.add_assoc]

@[simp] theorem Memory.length_codeword (m : Memory) (sym : Byte) : (m.codeword sym).length = m.cwLen sym := by
  simp [Memory.codeword]

/-- The encoder's loop over bytes that all have codewords and fit: it appends their codewords and goes on. -/
theorem encodeFrom_append (pre rest : List Byte) (j : Nat) (s : State) (h0 : ∀ x ∈ pre, s.cwt.cwLen x ≠ 0)
    (hf : s.bbufLen + (pre.flatMap s.cwt.codeword).length ≤ s.cfg.bbufCap) :
    encodeFrom j (pre ++ rest) s = encodeFrom (j + pre.length) rest (s.appendBits (pre.flatMap s.cwt.codeword)) := by
  induction pre generalizing j s with
  | nil => simp [State.appendBits_nil]
  | cons x pre ih =>
    simp only [List.flatMap_cons, List.length_append, Memory.length_codeword] at hf
    have hx := h0 x (by simp)
    have hc : ¬ s.bbufLen + s.cwt.cwLen x > s.cfg.bbufCap := by omega
    simp only [List.cons_append, encodeFrom, if_neg hx, if_neg hc]
    rw [ih _ _ (fun y hy => by simpa using h0 y (by simp [hy]))]
    · simp only [State.appendBits_cwt, State.appendBits_appendBits, List.flatMap_cons, List.length_cons]
      congr 1
      omega
    · simp only [State.appendBits_bbufLen, State.appendBits_cwt, State.appendBits_cfg, Memory.length_codeword]
      omega

/-- Everything the encoder's loop can do: it appends the codewords of the bytes before the first failing one, and its error is one of
ENC_BLOCK's. -/
theorem encodeFrom_cases (bytes : List Byte) (j : Nat) (s : State) :
    ∃ bits, (encodeFrom j bytes s).1 = s.appendBits bits ∧
      (s.bbufLen ≤ s.cfg.bbufCap → s.bbufLen + bits.length ≤ s.cfg.bbufCap) ∧
      ((encodeFrom j bytes s).2 = none ∨
        ∃ k sym, (encodeFrom j bytes s).2 = some (Err.noCodeword k sym) ∨
          (encodeFrom j bytes s).2 = some (Err.encodeCapacity k sym)) := by
  induction bytes generalizing j s with
  | nil => exact ⟨[], rfl, fun h => h, .inl rfl⟩
  | cons x rest ih =>
    simp only [encodeFrom]
    split
    · exact ⟨[], rfl, fun h => h, .inr ⟨j, x, .inl rfl⟩⟩
    · split
      · exact ⟨[], rfl, fun h => h, .inr ⟨j, x, .inr rfl⟩⟩
      · rename_i h1 h2
        obtain ⟨bits, e1, e2, e3⟩ := ih (j + 1) (s.appendBits (s.cwt.codeword x))
        refine ⟨s.cwt.codeword x ++ bits, ?_, ?_, e3⟩
        · rw [e1, State.appendBits_appendBits]
        · intro _
          simp only [State.appendBits_bbufLen, State.appendBits_cfg, Memory.length_codeword] at e2
          simp only [List.length_append, Memory.length_codeword]
          have := e2 (by omega)
          omega

/-- The bits of a buffer filled from empty are the bits appended, and every bit beyond is 0. -/
theorem State.blockBits_appendBits_clear (s : State) (bits : List Bool) :
    (s.clearBbuf.appendBits bits).blockBits = bits ∧
      ∀ k, bits.length ≤ k → (s.clearBbuf.appendBits bits).bbuf.bit k = false := by
  constructor
  · simp only [State.blockBits, State.appendBits_bbuf, State.appendBits_bbufLen, State.clearBbuf_bbuf,
      State.clearBbuf_bbufLen, Nat.zero_add]
    exact Memory.bits_setBits_self bits _ 0
  · intro k hk
    simp only [State.appendBits_bbuf, State.clearBbuf_bbuf, State.clearBbuf_bbufLen, Memory.bit_setBits]
    simp [hk]

/-! ### The decoder -/

/-- The decoder's loop as a function of the tree and the cursor: the cursor it ends at and the bytes it emits. -/
def decodeCore (node : Nat → Option Node) : Nat → List Bool → Option (Nat × List Byte)
  | c, [] => some (c, [])
  | c, b :: rest =>
    match node c with
    | some (.internal l r) =>
      match node (if b then r else l) with
      | some (.leaf sym) => (decodeCore node 0 rest).map fun x => (x.1, sym :: x.2)
      | some (.internal _ _) => decodeCore node (if b then r else l) rest
      | none => none
    | _ => none

/-- Bytes written at consecutive addresses. -/
def Memory.putBytes (m : Memory) (a : Nat) : List Byte → Memory
  | [] => m
  | x :: rest => (m.setByte a x).putBytes (a + 1) rest

theorem Memory.byte_putBytes (xs : List Byte) (m : Memory) (a b : Nat) :
    (m.putBytes a xs).byte b = if a ≤ b then (xs[b - a]?).getD (m.byte b) else m.byte b := by
  induction xs generalizing m a with
  | nil => simp [Memory.putBytes]
  | cons x rest ih =>
    simp only [Memory.putBytes, ih, Memory.byte_setByte]
    by_cases h : a ≤ b
    · by_cases h' : a + 1 ≤ b
      · have e : b - a = (b - (a + 1)) + 1 := by omega
        have hne : b ≠ a := by omega
        simp [h, h', hne, e]
      · have e : b = a := by omega
        subst e
        simp
    · have h' : ¬ a + 1 ≤ b := by omega
      have hne : b ≠ a := by omega
      simp [h, h', hne]

theorem Memory.bytes_putBytes (xs : List Byte) (m : Memory) : (m.putBytes 0 xs).bytes xs.length = xs := by
  apply List.ext_getElem?
  intro k
  by_cases h : k < xs.length
  · simp [Memory.bytes, Memory.byte_putBytes, h]
  · simp only [Memory.bytes, List.getElem?_map]
    rw [List.getElem?_eq_none (by simpa using h), List.getElem?_eq_none (by omega)]
    rfl

theorem Memory.wf_putBytes (xs : List Byte) {m : Memory} (a : Nat) (h : m.wf) : (m.putBytes a xs).wf := by
  induction xs generalizing m a with
  | nil => exact h
  | cons x rest ih => exact ih _ (Memory.wf_setByte _ _ h)

theorem Memory.within_putBytes (xs : List Byte) {m : Memory} {size : Nat} (a : Nat) (h : m.Within size)
    (ha : a + xs.length ≤ size) : (m.putBytes a xs).Within size := by
  induction xs generalizing m a with
  | nil => exact h
  | cons x rest ih =>
    simp only [List.length_cons] at ha
    exact ih _ (Memory.within_setByte _ _ h (by omega)) (by omega)

/-- The decoder's loop writes the emitted bytes from OUT_LEN on and moves the cursor, and changes nothing else. -/
theorem State.decodeBits_eq (s : State) (bits : List Bool) :
    s.decodeBits bits =
      (decodeCore s.node s.cursor bits).map fun x =>
        { s with obuf := s.obuf.putBytes s.outLen x.2, outLen := s.outLen + x.2.length, cursor := x.1 } := by
  induction bits generalizing s with
  | nil => rfl
  | cons b rest ih =>
    rcases hn : s.node s.cursor with _ | (_ | ⟨l, r⟩)
    · simp only [State.decodeBits, State.decodeBit, decodeCore, hn, Option.map_none]
    · simp only [State.decodeBits, State.decodeBit, decodeCore, hn, Option.map_none]
    · rcases hm : s.node (if b then r else l) with _ | (sym | _)
      · simp only [State.decodeBits, State.decodeBit, decodeCore, hn, hm, Option.map_none]
      · have hnode : State.node { s with obuf := s.obuf.setByte s.outLen sym, outLen := s.outLen + 1, cursor := 0 } =
            s.node := rfl
        simp only [State.decodeBits, State.decodeBit, decodeCore, hn, hm, ih, hnode, Option.map_map]
        congr 1
        funext x
        simp only [Function.comp, Memory.putBytes, List.length_cons, Nat.add_assoc, Nat.add_comm 1]
      · have hnode : State.node { s with cursor := if b then r else l } = s.node := rfl
        simp only [State.decodeBits, State.decodeBit, decodeCore, hn, hm, ih, hnode]

theorem decodeCore_append (node : Nat → Option Node) (c : Nat) (a b : List Bool) :
    decodeCore node c (a ++ b) =
      (decodeCore node c a).bind fun x => (decodeCore node x.1 b).map fun y => (y.1, x.2 ++ y.2) := by
  induction a generalizing c with
  | nil => simp [decodeCore]
  | cons x a ih =>
    simp only [List.cons_append, decodeCore]
    split
    · split
      · simp only [ih, Option.bind_map, Option.map_bind, Function.comp_def]
        congr 1
        funext y
        simp [Option.map_map, Function.comp_def]
      · exact ih _
      · rfl
    · rfl

theorem Holds.node_eq {t u : HTree} {s : State} {k : Nat} (h : Holds t s) (hk : t.sub k = some u) :
    s.node k = some (u.rootNode k) := by
  have hlt : k < t.size := by have := HTree.sub_size hk; have := u.size_pos; omega
  simp only [State.node, h.nodeCount, hlt, if_true, h.nodes]
  have := HTree.getElem?_arena 0 hk
  simpa using this

/-- With tree `t` in the arena the decoder's loop is the tree's walk (R160). -/
theorem decodeCore_walk {t : HTree} {s : State} (h : Holds t s) (cur : HTree) (c : Nat) (bits : List Bool)
    (hc : t.sub c = some cur) (hn : cur.isNode = true) :
    ∃ c', decodeCore s.node c bits = some (c', (t.walk cur bits).1) ∧ t.sub c' = some (t.walk cur bits).2 := by
  induction bits generalizing cur c with
  | nil => exact ⟨c, by simp [decodeCore, HTree.walk], by simpa [HTree.walk] using hc⟩
  | cons b rest ih =>
    cases cur with
    | leaf => cases hn
    | node l r =>
      obtain ⟨hl, hr⟩ := HTree.sub_children hc
      have hroot := ih t 0 (HTree.sub_zero t) h.isNode
      have hnode : s.node c = some (.internal (c + 1) (c + 1 + l.size)) := h.node_eq hc
      simp only [decodeCore, hnode, HTree.walk]
      cases b with
      | false =>
        simp only [Bool.false_eq_true, if_false]
        rw [h.node_eq hl]
        cases l with
        | leaf sym =>
          obtain ⟨c', e1, e2⟩ := hroot
          exact ⟨c', by simp [HTree.rootNode, e1], e2⟩
        | node a d => exact ih _ _ hl rfl
      | true =>
        simp only [if_true]
        rw [h.node_eq hr]
        cases r with
        | leaf sym =>
          obtain ⟨c', e1, e2⟩ := hroot
          exact ⟨c', by simp [HTree.rootNode, e1], e2⟩
        | node a d => exact ih _ _ hr rfl

end Sys2Proof.Machine
end

