-- ==== Sys2Proof/Laws/Bus.lean ====
section
/-! SUPPORT. The laws of the host's side: whose turn it is, what an accepted read or write does, and where the address map puts each
offset. -/

namespace Sys2Proof.Machine

/-! ### Turns -/

/-- At the host's turn its oldest action is performed. -/
theorem step_asks (s : State) (a : HostAction) (h : s.hostMoves) (ha : a ≠ .wait) : step (s.asks a) = hostAct a s.waited := by
  have hturn : engineTurn (s.asks a) = false := by
    simp only [engineTurn, State.asks]
    cases hb : s.busy with
    | false => rfl
    | true =>
      have := h hb
      cases a <;> simp_all
  simp only [step, hturn, Bool.false_eq_true, if_false, hostTurn]
  rfl

@[simp] theorem State.waited_busy (s : State) : s.waited.busy = s.busy := rfl
@[simp] theorem State.waited_cfg (s : State) : s.waited.cfg = s.cfg := rfl

theorem State.waited_idle {s : State} (h : s.busy = false) : s.waited = s := by
  have : (if s.busy then s.engineDelay - 1 else s.engineDelay) = s.engineDelay := by simp [h]
  simp only [State.waited, this]

theorem State.waited_pending {s : State} (h : s.busy = true) : s.waited = { s with engineDelay := s.engineDelay - 1 } := by
  have : (if s.busy then s.engineDelay - 1 else s.engineDelay) = s.engineDelay - 1 := by simp [h]
  simp only [State.waited, this]

theorem State.hostMoves_idle {s : State} (h : s.busy = false) : s.hostMoves := by
  intro hb; simp [h] at hb

/-- Everything a step can do: the engine's step, an idle turn, or the host's oldest action. -/
theorem step_cases (s : State) :
    (engineTurn s = true ∧ step s = engineStep s) ∨
    (engineTurn s = false ∧ s.hostQueue = [] ∧ step s = .next s) ∨
    ∃ a rest, engineTurn s = false ∧ s.hostQueue = a :: rest ∧ step s = hostAct a (s.popAction rest) := by
  cases ht : engineTurn s with
  | true => exact .inl ⟨rfl, by simp [step, ht]⟩
  | false =>
    refine .inr ?_
    cases hq : s.hostQueue with
    | nil => exact .inl ⟨rfl, rfl, by simp [step, ht, hostTurn, hq]⟩
    | cons a rest => exact .inr ⟨a, rest, rfl, rfl, by simp [step, ht, hostTurn, hq]⟩

/-- Everything an engine step can do: the decoded command's meaning, or an illegal word's error. -/
theorem engineStep_cases (s : State) :
    (∃ i, decode s.lastCmd = .ok i ∧ engineStep s = exec i s) ∨
    ∃ e, decode s.lastCmd = .error e ∧ engineStep s = .next (s.raise (Err.illegal e)) := by
  cases hd : decode s.lastCmd with
  | ok i => exact .inl ⟨i, rfl, by simp [engineStep, hd]⟩
  | error e => exact .inr ⟨e, rfl, by simp [engineStep, hd, execIllegal]⟩

/-! ### Accepted accesses -/

theorem offsetOf_base (c : Config) (off : Nat) (h : off < 0x400000) : offsetOf c (c.base + off) = some off := by
  unfold offsetOf
  rw [if_pos (by simp only [Config.windowSize]; omega)]
  congr 1
  omega

theorem offsetOf_some {c : Config} {addr off : Nat} (h : offsetOf c addr = some off) :
    addr = c.base + off ∧ off < 0x400000 := by
  unfold offsetOf at h
  split at h
  · rename_i hw
    simp only [Config.windowSize] at hw
    cases h
    omega
  · cases h

theorem accessOk_eight (off : Nat) (h : off % 8 = 0) : accessOk off 8 = true := by simp [accessOk, h]

theorem accessOk_iff (off width : Nat) : accessOk off width = true ↔ width = 8 ∧ off % 8 = 0 := by simp [accessOk]

/-- An aligned 8-byte read in the window is answered with what the location holds, or any value. -/
theorem hostRead_eq (s : State) (off : Nat) (h : off < 0x400000) (h8 : off % 8 = 0) :
    hostRead (s.cfg.base + off) 8 s = .next (s.reply (s.busRead (locate s.cfg off))) := by
  simp [hostRead, offsetOf_base _ _ h, accessOk_eight _ h8]

/-- An aligned 8-byte write in the window is performed, unless a command is pending and the location is not one of the three. -/
theorem hostWrite_eq (s : State) (off : Nat) (v : Word) (h : off < 0x400000) (h8 : off % 8 = 0) :
    hostWrite (s.cfg.base + off) 8 v s =
      if s.busy && !(locate s.cfg off).writableWhileBusy then .refused .writeWhileBusy
      else .next (s.writeLoc v (locate s.cfg off)) := by
  simp [hostWrite, offsetOf_base _ _ h, accessOk_eight _ h8]

/-- Everything a host read can do. -/
theorem hostRead_cases (addr width : Nat) (s : State) :
    hostRead addr width s = .fault .outsideWindow ∨ hostRead addr width s = .refused .accessShape ∨
      ∃ off, addr = s.cfg.base + off ∧ off < 0x400000 ∧ off % 8 = 0 ∧ width = 8 ∧
        hostRead addr width s = .next (s.reply (s.busRead (locate s.cfg off))) := by
  simp only [hostRead]
  split
  · exact .inl rfl
  · rename_i off ho
    obtain ⟨h1, h2⟩ := offsetOf_some ho
    split
    · rename_i ha
      obtain ⟨h3, h4⟩ := (accessOk_iff _ _).1 ha
      exact .inr (.inr ⟨off, h1, h2, h4, h3, rfl⟩)
    · exact .inr (.inl rfl)

/-- Everything a host write can do. -/
theorem hostWrite_cases (addr width : Nat) (v : Word) (s : State) :
    hostWrite addr width v s = .fault .outsideWindow ∨ hostWrite addr width v s = .refused .accessShape ∨
      (hostWrite addr width v s = .refused .writeWhileBusy ∧ s.busy = true) ∨
      ∃ off, addr = s.cfg.base + off ∧ off < 0x400000 ∧ off % 8 = 0 ∧ width = 8 ∧
        (s.busy = true → (locate s.cfg off).writableWhileBusy = true) ∧
        hostWrite addr width v s = .next (s.writeLoc v (locate s.cfg off)) := by
  simp only [hostWrite]
  split
  · exact .inl rfl
  · rename_i off ho
    obtain ⟨h1, h2⟩ := offsetOf_some ho
    split
    · rename_i ha
      obtain ⟨h3, h4⟩ := (accessOk_iff _ _).1 ha
      split
      · rename_i hb
        simp only [Bool.and_eq_true] at hb
        exact .inr (.inr (.inl ⟨rfl, hb.1⟩))
      · rename_i hb
        refine .inr (.inr (.inr ⟨off, h1, h2, h4, h3, fun h => ?_, rfl⟩))
        simpa [h] using hb
    · exact .inr (.inl rfl)

/-! ### The address map -/

theorem locate_register (c : Config) (off : Nat) (h : off < 0x4000) : locate c off = registerAt (off / 8) := by
  simp [locate, h]

theorem locate_cwt (c : Config) (e k : Nat) (he : e < 256) (hk : k < 8) : locate c (0x4000 + 0x40 * e + 8 * k) = cwtAt e k := by
  have h1 : ¬ 0x4000 + 0x40 * e + 8 * k < 0x4000 := by omega
  have h2 : 0x4000 + 0x40 * e + 8 * k < 0x8000 := by omega
  have h3 : (0x4000 + 0x40 * e + 8 * k - 0x4000) / 0x40 = e := by omega
  have h4 : (0x4000 + 0x40 * e + 8 * k - 0x4000) % 0x40 / 8 = k := by omega
  rw [locate, if_neg h1, if_pos h2, h3, h4]

theorem locate_node (c : Config) (k : Nat) (hk : k ≤ 510) : locate c (0x8000 + 8 * k) = .node k := by
  have h1 : ¬ 0x8000 + 8 * k < 0x4000 := by omega
  have h2 : ¬ 0x8000 + 8 * k < 0x8000 := by omega
  have h3 : 0x8000 + 8 * k < 0x8FF8 := by omega
  have h4 : (0x8000 + 8 * k - 0x8000) / 8 = k := by omega
  rw [locate, if_neg h1, if_neg h2, if_pos h3, h4]

theorem locate_bbuf (c : Config) (w : Nat) (hw : w < c.bbufWords) (hc : c.Ok) : locate c (0x100000 + 8 * w) = .bbuf w := by
  obtain ⟨⟨_, hb⟩, _⟩ := hc
  have h4 : (0x100000 + 8 * w - 0x100000) / 8 = w := by omega
  rw [locate, if_neg (by omega), if_neg (by omega), if_neg (by omega), if_neg (by omega), if_pos (by omega),
    if_pos (by omega), h4]

theorem locate_ibuf (c : Config) (w : Nat) (hw : 8 * w < c.ibufSize) (hc : c.Ok) : locate c (0x200000 + 8 * w) = .ibuf w := by
  obtain ⟨_, ⟨_, _, hb⟩, _⟩ := hc
  have h4 : (0x200000 + 8 * w - 0x200000) / 8 = w := by omega
  rw [locate, if_neg (by omega), if_neg (by omega), if_neg (by omega), if_neg (by omega), if_neg (by omega),
    if_pos (by omega), if_pos (by omega), h4]

theorem locate_obuf (c : Config) (w : Nat) (hw : 8 * w < c.obufSize) (hc : c.Ok) : locate c (0x300000 + 8 * w) = .obuf w := by
  obtain ⟨_, _, ⟨_, _, hb⟩, _⟩ := hc
  have h4 : (0x300000 + 8 * w - 0x300000) / 8 = w := by omega
  rw [locate, if_neg (by omega), if_neg (by omega), if_neg (by omega), if_neg (by omega), if_neg (by omega),
    if_neg (by omega), if_pos (by omega), if_pos (by omega), h4]

/-- Whether a location is a register or reserved, and no entry of a window. -/
def Loc.plain : Loc → Bool
  | .cwLen _ | .cwBits _ _ | .node _ | .bbuf _ | .ibuf _ | .obuf _ => false
  | _ => true

theorem registerAt_plain (k : Nat) : (registerAt k).plain = true := by
  have h : ∀ l ∈ registerMap, l.plain = true := by decide
  unfold registerAt
  cases hk : registerMap[k]? with
  | none => rfl
  | some l => exact h l (List.mem_of_getElem? hk)

theorem registerAt_of_ge (k : Nat) (h : 14 ≤ k) : registerAt k = .reserved := by
  unfold registerAt
  rw [List.getElem?_eq_none (by simpa [registerMap] using h)]
  rfl

/-- Everything the address map can answer for an aligned offset, with the bounds of what it names. -/
theorem locate_cases (c : Config) (off : Nat) (hc : c.Ok) (h8 : off % 8 = 0) :
    (off < 0x4000 ∧ locate c off = registerAt (off / 8)) ∨
    (∃ e k, e < 256 ∧ off = 0x4000 + 0x40 * e + 8 * k ∧ k < 8 ∧ locate c off = cwtAt e k) ∨
    (∃ k, k ≤ 510 ∧ off = 0x8000 + 8 * k ∧ locate c off = .node k) ∨
    (∃ w, w < c.bbufWords ∧ off = 0x100000 + 8 * w ∧ locate c off = .bbuf w) ∨
    (∃ w, 8 * w + 8 ≤ c.ibufSize ∧ off = 0x200000 + 8 * w ∧ locate c off = .ibuf w) ∨
    (∃ w, 8 * w + 8 ≤ c.obufSize ∧ off = 0x300000 + 8 * w ∧ locate c off = .obuf w) ∨
    (0x8FF8 ≤ off ∧ locate c off = .reserved) := by
  by_cases h1 : off < 0x4000
  · exact .inl ⟨h1, locate_register c off h1⟩
  by_cases h2 : off < 0x8000
  · obtain ⟨e, k, he, hk, rfl⟩ : ∃ e k, e < 256 ∧ k < 8 ∧ off = 0x4000 + 0x40 * e + 8 * k :=
      ⟨(off - 0x4000) / 0x40, (off - 0x4000) % 0x40 / 8, by omega, by omega, by omega⟩
    exact .inr (.inl ⟨e, k, he, rfl, hk, locate_cwt c e k he hk⟩)
  by_cases h3 : off < 0x8FF8
  · obtain ⟨k, hk, rfl⟩ : ∃ k, k ≤ 510 ∧ off = 0x8000 + 8 * k := ⟨(off - 0x8000) / 8, by omega, by omega⟩
    exact .inr (.inr (.inl ⟨k, hk, rfl, locate_node c k hk⟩))
  refine .inr (.inr (.inr ?_))
  by_cases h4 : off < 0x100000
  · exact .inr (.inr (.inr ⟨by omega, by rw [locate, if_neg h1, if_neg h2, if_neg h3, if_pos h4]⟩))
  by_cases h5 : off < 0x200000
  · by_cases h6 : off < 0x100000 + 8 * c.bbufWords
    · obtain ⟨w, hw, rfl⟩ : ∃ w, w < c.bbufWords ∧ off = 0x100000 + 8 * w := ⟨(off - 0x100000) / 8, by omega, by omega⟩
      exact .inl ⟨w, hw, rfl, locate_bbuf c w hw hc⟩
    · exact .inr (.inr (.inr ⟨by omega, by rw [locate, if_neg h1, if_neg h2, if_neg h3, if_neg h4, if_pos h5, if_neg h6]⟩))
  by_cases h7 : off < 0x300000
  · by_cases h8 : off < 0x200000 + c.ibufSize
    · obtain ⟨w, hw, rfl⟩ : ∃ w, 8 * w + 8 ≤ c.ibufSize ∧ off = 0x200000 + 8 * w := by
        obtain ⟨_, ⟨hi, _, _⟩, _⟩ := hc
        exact ⟨(off - 0x200000) / 8, by omega, by omega⟩
      exact .inr (.inl ⟨w, hw, rfl, locate_ibuf c w (by omega) hc⟩)
    · exact .inr (.inr (.inr ⟨by omega, by rw [locate, if_neg h1, if_neg h2, if_neg h3, if_neg h4, if_neg h5, if_pos h7, if_neg h8]⟩))
  by_cases h9 : off < 0x400000
  · by_cases h10 : off < 0x300000 + c.obufSize
    · obtain ⟨w, hw, rfl⟩ : ∃ w, 8 * w + 8 ≤ c.obufSize ∧ off = 0x300000 + 8 * w := by
        obtain ⟨_, _, ⟨hi, _, _⟩, _⟩ := hc
        exact ⟨(off - 0x300000) / 8, by omega, by omega⟩
      exact .inr (.inr (.inl ⟨w, hw, rfl, locate_obuf c w (by omega) hc⟩))
    · exact .inr (.inr (.inr ⟨by omega, by rw [locate, if_neg h1, if_neg h2, if_neg h3, if_neg h4, if_neg h5, if_neg h7, if_pos h9, if_neg h10]⟩))
  · exact .inr (.inr (.inr ⟨by omega, by rw [locate, if_neg h1, if_neg h2, if_neg h3, if_neg h4, if_neg h5, if_neg h7, if_neg h9]⟩))

/-- CMD lies at offset 0x20 alone. -/
theorem locate_cmd {c : Config} {off : Nat} (hc : c.Ok) (h8 : off % 8 = 0) (h : locate c off = .cmd) : off = 0x20 := by
  rcases locate_cases c off hc h8 with ⟨_, h2⟩ | ⟨e, k, _, _, _, h2⟩ | ⟨_, _, _, h2⟩ | ⟨_, _, _, h2⟩ | ⟨_, _, _, h2⟩ |
    ⟨_, _, _, h2⟩ | ⟨_, h2⟩ <;> rw [h2] at h
  · have hk : ∀ k < 14, registerAt k = .cmd → k = 4 := by decide
    by_cases h14 : off / 8 < 14
    · have := hk _ h14 h
      omega
    · rw [registerAt_of_ge _ (by omega)] at h
      cases h
  · unfold cwtAt at h
    split_ifs at h
  all_goals cases h

end Sys2Proof.Machine
end

