-- ==== Sys2Proof/Laws/PerInstr.lean ====
section
/-! SUPPORT. The laws stated per instruction. Family RowSelected: the word a well-formed command is encoded as selects the command's
row of the opcode map, "A word c selects a row when c AND mask = match" (R86). -/

namespace Sys2Proof.Laws.RowSelected

/-- The encoded word of `i` selects the row of `i` (R86). -/
def Statement (i : Instr) : Prop := i.wellFormed = true → encode i &&& i.maskWord = i.matchWord

/-- An operand shifted above the opcode byte leaves the masked bits to the opcode. -/
theorem masked_operand (x m k : Word) (hx : x &&& m = 0#64) (hk : k &&& m = k) : (x ||| k) &&& m = k := by
  apply BitVec.eq_of_getLsbD_eq
  intro j _
  have h1 := congrArg (fun z => z.getLsbD j) hx
  have h2 := congrArg (fun z => z.getLsbD j) hk
  simp only [BitVec.getLsbD_and, BitVec.getLsbD_zero] at h1 h2
  simp only [BitVec.getLsbD_and, BitVec.getLsbD_or, Bool.and_or_distrib_right, h1, h2, Bool.false_or]

theorem nop : Statement .nop := fun _ => rfl
theorem treeLoad : Statement .treeLoad := fun _ => rfl
theorem cwClear : Statement .cwClear := fun _ => rfl
theorem cwDerive : Statement .cwDerive := fun _ => rfl
theorem encBlock : Statement .encBlock := fun _ => rfl
theorem decBlock : Statement .decBlock := fun _ => rfl
theorem decReset : Statement .decReset := fun _ => rfl
theorem pkClear : Statement .pkClear := fun _ => rfl

theorem pkAppend (nbits : BitVec 7) : Statement (.pkAppend nbits) := by
  intro _
  have h : ∀ n : BitVec 7, (n.setWidth 64 <<< 8 : Word) &&& 0xFFFFFFFFFFFF80FF#64 = 0#64 := by decide
  exact masked_operand _ _ _ (h nbits) (show _ = _ by simp only [Instr.maskWord]; decide)

/-- IMM32 lies above bit 31. -/
theorem imm32_masked (x : Count32) : (x.setWidth 64 <<< 32 : Word) &&& 0x00000000FFFFFFFF#64 = 0#64 := by
  have high : ∀ j : Fin 64, ¬ j.val < 32 → (0x00000000FFFFFFFF#64).getLsbD j.val = false := by decide
  apply BitVec.eq_of_getLsbD_eq
  intro k hk
  simp only [BitVec.getLsbD_and, BitVec.getLsbD_shiftLeft, BitVec.getLsbD_zero]
  by_cases h : k < 32
  · simp [h]
  · simp [high ⟨k, hk⟩ h]

theorem pkGet (index : Count32) : Statement (.pkGet index) :=
  fun _ => masked_operand _ _ _ (imm32_masked index) (show _ = _ by simp only [Instr.maskWord]; decide)

theorem pkTruncate (count : Count32) : Statement (.pkTruncate count) :=
  fun _ => masked_operand _ _ _ (imm32_masked count) (show _ = _ by simp only [Instr.maskWord]; decide)

end Sys2Proof.Laws.RowSelected
end

