-- ==== Sys2Proof/Tests/Slice0.lean ====
section
/-! SUPPORT. The model's own tests: ill-formed commands, words written out from the encodings of R82 to R86, one step of each
command with the results of 95_test_vectors.md, and for every obligation with hypotheses a state and operands that meet them. -/

open Sys2Proof Sys2Proof.Machine

namespace Sys2Proof.Tests

/-! ### States the tests start from -/

/-- The state after reset, with RAMs of zeros in place of unknown contents. -/
def quiet : State :=
  { State.reset with cwt := Memory.zeroed, bbuf := Memory.zeroed, ibuf := Memory.zeroed, obuf := Memory.zeroed }

/-- The example tree of R131: a, b, c with codewords 0, 10, 11. -/
def abc : HTree := .node (.leaf 0x61) (.node (.leaf 0x62) (.leaf 0x63))

/-- The deepest tree: `n` internal nodes in a comb. -/
def comb : Nat → HTree
  | 0 => .leaf 0xFF
  | n + 1 => .node (.leaf (BitVec.ofNat 8 n)) (comb n)

/-- `s` with the bit buffer holding `bits`. -/
def withBits (s : State) (bits : List Bool) : State :=
  { s with bbuf := Memory.zeroed.setBits 0 bits, bbufLen := bits.length }

/-- `s` with the input buffer holding `bytes`. -/
def withInput (s : State) (bytes : List Byte) : State :=
  { s with ibuf := Memory.zeroed.putBytes 0 bytes, inLen := bytes.length }

/-- `s` with tree `t` loaded and the cursor at the root. -/
def withTree (s : State) (t : HTree) : State :=
  { s with treeValid := true, nodes := t.arena 0, nodeCount := t.size, leafCount := t.leaves }

/-- `s` with the table of the example tree (V31). -/
def withTable (s : State) : State :=
  { s with cwt := ((Memory.zeroed.setCodeword 0x61 [false]).setCodeword 0x62 [true, false]).setCodeword 0x63 [true, true] }

/-- The state an outcome gives, and `quiet` where it gives none. -/
def after : Result → State
  | .next s => s
  | .fault _ => quiet
  | .refused _ => quiet

/-- Whether an outcome is a next state. -/
def runs : Result → Bool
  | .next _ => true
  | .fault _ => false
  | .refused _ => false

/-- A pending command, and two host accesses to come, the engine's step due after `delay` of them. -/
def pendingWith (c : Word) (delay : Nat) : State :=
  { quiet.pend c delay with hostQueue := [.read 0x28 8, .read 0x28 8] }

/-! ### Well-formedness and the decoder -/

theorem test_nbits_65_ill_formed : (Instr.pkAppend 65).wellFormed = false := by decide
theorem test_nbits_127_ill_formed : (Instr.pkAppend 127).wellFormed = false := by decide
theorem test_nbits_64_well_formed : (Instr.pkAppend 64).wellFormed = true := by decide

/-- Format N (R82): bits 63 to 8 zero, the opcode of TREE_LOAD, 0001 0000, below. -/
theorem test_decode_format_n : decode (0#56 ++ 0b00010000#8) = .ok .treeLoad := by decide

/-- Format B (R83): reserved 0, NBITS = 100 0000 in bits 14 to 8, PK_APPEND's opcode 0100 0001. -/
theorem test_decode_format_b : decode (0#49 ++ 0b1000000#7 ++ 0b01000001#8) = .ok (.pkAppend 64) := by decide

/-- Format I (R84): IMM32 in bits 63 to 32, reserved 0, PK_GET's opcode 0100 0010. -/
theorem test_decode_format_i :
    decode (0b10000000000000000000000000000001#32 ++ 0#24 ++ 0b01000010#8) = .ok (.pkGet 0x80000001) := by decide

/-- Control, tree, encoder and decoder families: the opcodes of R86 bit by bit. -/
theorem test_decode_families :
    decode (0#56 ++ 0b00000000#8) = .ok .nop ∧ decode (0#56 ++ 0b00010010#8) = .ok .cwDerive ∧
    decode (0#56 ++ 0b00100000#8) = .ok .encBlock ∧ decode (0#56 ++ 0b00110001#8) = .ok .decReset := by decide

/-- V7: a reserved bit of format I. -/
theorem test_decode_reserved : decode 0x142#64 = .error (.reservedBits 0x42) := by decide

/-- The table's bits: 64 of them, bit 0 first (spec/opcode_table.json). -/
theorem test_decodeTableWord : decodeTableWord 64 0x0000000600000043 = some (.pkTruncate 6) := by decide

/-- Every command runs as the first one after reset, where the RAMs hold unknown contents. -/
theorem test_first_command_after_reset :
    ∀ w ∈ [0x00, 0x10, 0x11, 0x12, 0x20, 0x30, 0x31, 0x40, 0x341, 0x4041, 0x200000042, 0x100000043],
      runs (step (State.reset.withFetchWord 64 w)) = true := by decide

/-! ### One command each -/

/-- V2: STATUS 0x12 after NOP. -/
theorem test_nop : (after (exec .nop quiet)).statusWord = 0x12 := by decide

/-- V3: STATUS and ERR_INFO after an unknown opcode. -/
theorem test_illegal :
    (after (step (quiet.withFetchWord 64 1))).statusWord = 0x00010616 ∧
    (after (step (quiet.withFetchWord 64 1))).errInfoWord = 0x0000000100000000 := by decide

/-- V30: the example tree loads as five nodes. -/
theorem test_treeLoad_example :
    let s := after (exec .treeLoad (withInput (withBits quiet [false, true, false, true, true]) [0x61, 0x62, 0x63]))
    s.statusWord = 0x1A ∧ s.treeInfoWord = 0x00030005 ∧
      s.nodes.map Node.word = [0x0000000200010000, 0x6101, 0x0000000400030000, 0x6201, 0x6301] := by decide

/-- V43: TRAILING_SHAPE at index 3. -/
theorem test_treeLoad_trailing_shape :
    let s := after (exec .treeLoad (withInput (withBits quiet [false, true, true, true]) [0x61, 0x62]))
    s.statusWord = 0x00050216 ∧ s.errInfoWord = 3 := by decide

/-- V47: every length is 0 (one entry shown). -/
theorem test_cwClear : (after (exec .cwClear (withTable quiet))).cwt.cwLen 0x62 = 0 := by decide

/-- V31: the entries of b and c. -/
theorem test_cwDerive_example :
    let m := (after (exec .cwDerive (withTree quiet abc))).cwt
    m.codeword 0x61 = [false] ∧ m.codeword 0x62 = [true, false] ∧ m.codeword 0x63 = [true, true] ∧ m.cwLen 0x64 = 0 := by
  decide +kernel

/-- V34: of two leaves with one symbol the later wins. -/
theorem test_cwDerive_duplicate :
    (after (exec .cwDerive (withTree quiet (.node (.leaf 0) (.leaf 0))))).cwt.codeword 0 = [true] := by decide

/-- V48: "abcab" encodes to 0x5A in 8 bits. -/
theorem test_encBlock_abcab :
    let s := after (exec .encBlock (withInput (withTable quiet) [0x61, 0x62, 0x63, 0x61, 0x62]))
    s.bbufLen = 8 ∧ s.readBbuf 0 = 0x5A := by decide +kernel

/-- V51: NO_CODEWORD at byte 2, the partial result kept. -/
theorem test_encBlock_no_codeword :
    let s := after (exec .encBlock (withInput (withTable quiet) [0x61, 0x62, 0x7A]))
    s.errInfoWord = 0x0000007A00000002 ∧ s.errCode = 4 ∧ s.bbufLen = 3 ∧ s.readBbuf 0 = 2 := by decide

/-- V55: one symbol, then the cursor stays on node 2. -/
theorem test_decBlock_mid_codeword :
    let s := after (exec .decBlock (withBits (withTree quiet abc) [false, true]))
    s.outLen = 1 ∧ s.readObuf 0 = 0x61 ∧ s.cursor = 2 ∧ s.statusWord = 0x0A := by decide

/-- V56: the next block goes on from node 2. -/
theorem test_decBlock_across_blocks :
    let s := after (exec .decBlock { withBits (withTree quiet abc) [false, true, true] with cursor := 2 })
    s.outLen = 2 ∧ s.readObuf 0 = 0x6362 ∧ s.cursor = 0 := by decide

/-- V60. -/
theorem test_decReset : (after (exec .decReset { withTree quiet abc with cursor := 2 })).statusWord = 0x1A := by decide

/-- V20. -/
theorem test_pkClear :
    let s := after (exec .pkClear (withBits quiet [true, true]))
    s.bbufLen = 0 ∧ s.bbuf = Memory.zeroed := by decide

set_option maxRecDepth 20000 in
/-- V25, second append: 5 bits across a word boundary. -/
theorem test_pkAppend_across_words :
    let s := after (exec (.pkAppend 5) { withBits quiet (List.replicate 60 true) with pkData := 0x1F })
    s.bbufLen = 65 ∧ s.readBbuf 0 = 0xFFFFFFFFFFFFFFFF ∧ s.readBbuf 1 = 1 := by decide

/-- V27: CAPACITY sub 2. -/
theorem test_pkAppend_capacity :
    let s := after (exec (.pkAppend 64) { quiet with bbufLen := 480 })
    s.statusWord = 0x00020516 ∧ s.errInfoWord = 0x1E0 ∧ s.bbufLen = 480 := by decide

/-- V22a. -/
theorem test_pkGet_bit : (after (exec (.pkGet 2) (withBits quiet [true, false, true]))).result = 1 := by decide

/-- V22c: OUT_OF_RANGE sub 1, RESULT unchanged. -/
theorem test_pkGet_range :
    let s := after (exec (.pkGet 3) { withBits quiet [true, false, true] with result := 1 })
    s.statusWord = 0x00010116 ∧ s.errInfoWord = 3 ∧ s.result = 1 := by decide

/-- V24, first command: no stale bits. -/
theorem test_pkTruncate_zeroes :
    let s := after (exec (.pkTruncate 2) (withBits quiet [true, true, true]))
    s.bbufLen = 1 ∧ s.bbuf.word 0 = 1 := by decide

/-- V23b: OUT_OF_RANGE sub 2. -/
theorem test_pkTruncate_range :
    (after (exec (.pkTruncate 3) (withBits quiet [true, false]))).statusWord = 0x00020116 := by decide

/-- V13: BBUF words are masked at BBUF_LEN when read, and kept whole. -/
theorem test_bbuf_masked :
    (after (step { quiet with bbufLen := 4, bbuf := Memory.zeroed.setWord 0 0xFF, hostQueue := [.read 0x100000 8] })).replies =
      [0xF] := by decide

/-- V1: the first six reads after reset, one shown: CFG0. -/
theorem test_cfg0 : (after (step { quiet with hostQueue := [.read 0x08 8] })).replies = [0x0000020000000008] := by decide

/-- V14: a BBUF_LEN of 513 is ignored, 512 is taken. -/
theorem test_bbufLen_warl :
    (after (step { quiet with hostQueue := [.write 0x40 8 513] })).bbufLen = 0 ∧
    (after (step { quiet with hostQueue := [.write 0x40 8 512] })).bbufLen = 512 := by decide

/-- V12: the line is high after a completion with IRQ_EN = 1 and low while masked. -/
theorem test_irq :
    (after (exec .nop { quiet with irqEn := true })).irq = true ∧ (after (exec .nop quiet)).irq = false := by decide

/-! ### States and operands that meet the hypotheses of the obligations -/

theorem staged_blockBits (s : State) (bits : List Bool) : (withBits s bits).blockBits = bits :=
  Memory.bits_setBits_self bits _ 0

theorem staged_inputBytes (s : State) (bytes : List Byte) : (withInput s bytes).inputBytes = bytes :=
  Memory.bytes_putBytes bytes _

theorem holds_abc : Holds abc (withTree quiet abc) := ⟨rfl, rfl, by decide, rfl, rfl, rfl⟩

theorem leaves_comb (n : Nat) : (comb n).leaves = n + 1 := by
  induction n with
  | zero => rfl
  | succ n ih => simp [comb, HTree.leaves, ih]; omega

theorem holds_comb : Holds (comb 255) (withTree quiet (comb 255)) := ⟨rfl, rfl, by rw [leaves_comb], rfl, rfl, rfl⟩

theorem inv_quiet : Inv quiet where
  cfg := by decide
  bbufLen := by decide
  inLen := by decide
  outLen := by decide
  loaded := fun h => by cases h
  empty := by decide
  err := by decide
  busy := by decide
  pending := by decide
  cwt := by decide
  bbuf := by decide
  ibuf := by decide
  obuf := by decide

theorem inv_loaded : Inv (withTree quiet abc) where
  cfg := by decide
  bbufLen := by decide
  inLen := by decide
  outLen := by decide
  loaded := fun _ => ⟨⟨abc, holds_abc⟩, 1, 2, by decide⟩
  empty := by decide
  err := by decide
  busy := by decide
  pending := by decide
  cwt := by decide
  bbuf := by decide
  ibuf := by decide
  obuf := by decide

/-- A pending DEC_BLOCK with a tree loaded, the cursor on an internal node other than the root. -/
def pendingDecode : State := { (withBits (withTree quiet abc) [true, false]).pend 0x30 0 with cursor := 2 }

theorem inv_pendingDecode : Inv pendingDecode where
  cfg := by decide
  bbufLen := by decide
  inLen := by decide
  outLen := by decide
  loaded := fun _ => ⟨⟨abc, ⟨rfl, rfl, by decide, rfl, rfl, rfl⟩⟩, 3, 4, by decide⟩
  empty := by decide
  err := by decide
  busy := by decide
  pending := by decide
  cwt := by decide
  bbuf := by decide
  ibuf := by decide
  obuf := by decide

theorem test_meets_DecodeInvertsEncode : (Instr.pkAppend 64).wellFormed = true ∧ (Instr.pkGet 0xFFFFFFFF).wellFormed = true := by
  decide

theorem test_meets_EncodeInvertsDecode : decode 0x4041#64 = .ok (.pkAppend 64) := by decide

theorem test_meets_WordSelectsItsTableRow :
    decode 0xFFFFFFFF00000042#64 = .ok (.pkGet 0xFFFFFFFF) ∧
    (0x4041#64 &&& (Instr.pkAppend 0).maskWord = (Instr.pkAppend 0).matchWord ∧
      ((0x4041#64).extractLsb' 8 7).toNat ≤ 64) ∧
    0xFFFFFFFF00000043#64 &&& (Instr.pkTruncate 0).maskWord = (Instr.pkTruncate 0).matchWord := by decide

/-- Clauses 1 to 5: a word for each failing check, NBITS = 65 the least that fails. -/
theorem test_meets_EngineChecksWordInOrder_errors :
    (0x44#64).extractLsb' 0 8 ∉
      [0x00#8, 0x10#8, 0x11#8, 0x12#8, 0x20#8, 0x30#8, 0x31#8, 0x40#8, 0x41#8, 0x42#8, 0x43#8] ∧
    (0x8000000000000040#64).extractLsb' 8 56 ≠ 0#56 ∧ (0x8041#64).extractLsb' 15 49 ≠ 0#49 ∧
    (0x80000042#64).extractLsb' 8 24 ≠ 0#24 ∧
    ((0x4141#64).extractLsb' 0 8 = 0x41#8 ∧ (0x4141#64).extractLsb' 15 49 = 0#49 ∧ ((0x4141#64).extractLsb' 8 7).toNat > 64) := by
  decide

/-- Clauses 6 to 9: a word for each accepted format, NBITS = 64 the greatest and IMM32 the greatest. -/
theorem test_meets_EngineChecksWordInOrder_accepted :
    ((0x40#64).extractLsb' 0 8 = 0x40#8 ∧ (0x40#64).extractLsb' 8 56 = 0#56) ∧
    ((0x4041#64).extractLsb' 0 8 = 0x41#8 ∧ (0x4041#64).extractLsb' 15 49 = 0#49 ∧ ((0x4041#64).extractLsb' 8 7).toNat ≤ 64) ∧
    ((0xFFFFFFFF00000042#64).extractLsb' 0 8 = 0x42#8 ∧ (0xFFFFFFFF00000042#64).extractLsb' 8 24 = 0#24) ∧
    ((0xFFFFFFFF00000043#64).extractLsb' 0 8 = 0x43#8 ∧ (0xFFFFFFFF00000043#64).extractLsb' 8 24 = 0#24) := by decide

theorem test_meets_IllegalWordChangesOnlyCompletion :
    engineTurn (quiet.pend 0x4141 0) = true ∧ decode (quiet.pend 0x4141 0).lastCmd = .error (.nbitsRange 65 0x41) := by decide

theorem test_meets_StepRunsDecodedCommand :
    (engineTurn (quiet.pend 0x341 0) = true ∧ decode (quiet.pend 0x341 0).lastCmd = .ok (.pkAppend 3)) ∧
    quiet.busy = false ∧ engineTurn (pendingWith 0x341 1) = false ∧
    ((pendingWith 0x341 0).busy = true ∧ (pendingWith 0x341 0).engineDelay = 0) ∧
    ((quiet.pend 0x341 5).busy = true ∧ (quiet.pend 0x341 5).hostQueue = []) ∧
    { pendingWith 0x341 5 with hostQueue := [.wait] }.hostQueue.head? = some .wait ∧
    decodeTableWord 64 0x341 = some (.pkAppend 3) := by decide

theorem test_meets_CommandWriteIssues : quiet.busy = false := rfl

theorem test_meets_CommandWriteWhileBusyIsDropped :
    (pendingWith 0x0 1).busy = true ∧ (pendingWith 0x0 1).engineDelay ≠ 0 := by decide

theorem test_meets_CompletionRecordsListedError : ∃ t, exec (.pkGet 0) quiet = .next t ∧ t.err = true := ⟨_, rfl, rfl⟩

theorem test_meets_FailedCommandChangesOnlyCompletion :
    quiet.err = false ∧ ∃ t, exec .treeLoad quiet = .next t ∧ t.err = true := ⟨rfl, _, rfl, rfl⟩

theorem test_meets_PendingCommandCompletes : Inv pendingDecode ∧ pendingDecode.busy = true := ⟨inv_pendingDecode, rfl⟩

theorem test_meets_EngineTurnComesNearer :
    (pendingWith 0x0 1).busy = true ∧ engineTurn (pendingWith 0x0 1) = false ∧
      ∃ t, step (pendingWith 0x0 1) = .next t ∧ t.busy = true := ⟨rfl, rfl, _, rfl, rfl⟩

theorem test_meets_OnlyNamedCommandsWrite : ∃ t, exec .decBlock (withBits (withTree quiet abc) [false]) = .next t ∧ t.outLen ≠ 0 :=
  ⟨_, rfl, by decide⟩

theorem test_meets_TreeValidAndBusyWriters_tree :
    ∃ t, step ((withInput (withBits quiet [false, true, true]) [1, 2]).pend 0x10 0) = .next t ∧ t.treeValid ≠ quiet.treeValid :=
  ⟨_, rfl, by decide⟩

theorem test_meets_TreeValidAndBusyWriters_busy :
    (∃ t, step (quiet.asks (.write 0x20 8 0x40)) = .next t ∧ quiet.busy = false ∧ t.busy = true) ∧
    ∃ t, step (quiet.pend 0x40 0) = .next t ∧ (quiet.pend 0x40 0).busy = true ∧ t.busy = false :=
  ⟨⟨_, rfl, rfl, rfl⟩, _, rfl, rfl, rfl⟩

/-- 64 bits fill the buffer exactly from 448 (V28's shape), and one bit more does not fit. -/
theorem test_meets_PkAppendAppendsLowBits :
    { quiet with bbufLen := 448 }.bbufLen + (64#7).toNat ≤ quiet.cfg.bbufCap ∧
    { quiet with bbufLen := 449 }.bbufLen + (64#7).toNat > quiet.cfg.bbufCap ∧ (64#7).toNat ≤ 64 := by decide

theorem test_meets_PkGetReadsOneBit :
    (2#32).toNat < (withBits quiet [true, false, true]).bbufLen ∧ (withBits quiet [true, false, true]).bbufLen ≤ (3#32).toNat := by
  decide

theorem test_meets_PkTruncateRemovesLastBits :
    (3#32).toNat ≤ (withBits quiet [true, false, true]).bbufLen ∧ (withBits quiet [true, false, true]).bbufLen < (4#32).toNat := by
  decide

theorem test_meets_ContainerKeepsItsBits :
    quiet.bbufLen = 0 ∧
    ContainerOp.fits quiet.cfg.bbufCap [] [.append true, .append false, .truncate 1, .append true, .truncate 0] ∧
    (ContainerOp.runList [] [.append true, .append false, .truncate 1, .append true, .truncate 0])[(1#32).toNat]? = some true := by
  refine ⟨rfl, ?_, rfl⟩
  simp [ContainerOp.fits]
  decide

theorem test_meets_PaddingBitsChangeNoResult :
    (∀ k < (withBits quiet [true, true]).bbufLen, (Memory.zeroed.setByte 0 0xFF).bit k = (withBits quiet [true, true]).bbuf.bit k) ∧
    ∃ t, exec (.pkAppend 2) (withBits quiet [true, true]) = .next t ∧ t.bbufLen = 4 := ⟨by decide, _, rfl, rfl⟩

/-- A tree of two leaves, the least that loads, and one of 256, the greatest. -/
theorem test_meets_TreeLoadRebuildsSerializedTree (t : HTree) (h : t = .node (.leaf 0) (.leaf 0) ∨ t = comb 255) :
    2 ≤ t.leaves ∧ t.leaves ≤ 256 ∧ (withInput (withBits quiet t.shape) t.alphabet).blockBits = t.shape ∧
      (withInput (withBits quiet t.shape) t.alphabet).inputBytes = t.alphabet := by
  refine ⟨?_, ?_, staged_blockBits quiet t.shape, staged_inputBytes quiet t.alphabet⟩ <;>
    rcases h with rfl | rfl <;> simp only [leaves_comb, HTree.leaves] <;> decide

theorem test_meets_TreeLoadAcceptsOnlyTrees :
    let s := withInput (withBits quiet [false, true, true]) [1, 2]
    s.err = false ∧ ∃ u, exec .treeLoad s = .next u ∧ u.err = false := ⟨rfl, _, rfl, rfl⟩

/-- Its three clauses: a lone leaf (V42), a shape bit left over (V43), an alphabet byte left over (V44). -/
theorem test_meets_ClosedTreeChecksInOrder :
    ((HTree.leaf 0x61).leaves ≤ 256 ∧ (HTree.leaf 0x61).isNode = false ∧
      (withBits quiet [true]).blockBits = (HTree.leaf 0x61).shape ++ [] ∧
      (withInput quiet [0x61]).inputBytes = (HTree.leaf 0x61).alphabet ++ []) ∧
    (abc.isNode = true ∧ (withBits quiet [false, true, false, true, true, true]).blockBits = abc.shape ++ [true]) ∧
    (withInput quiet [0x61, 0x62, 0x63, 0x64]).inputBytes = abc.alphabet ++ [0x64] := by decide

/-- Clause 1 (V37, the empty shape), clause 2 (V40), clause 3 (V41: 256 zero bits). -/
theorem test_meets_OpenTreeFailures :
    (abc.shape = (withBits quiet []).blockBits ++ abc.shape ∧ abc.shape ≠ []) ∧
    (abc.shape = [false] ++ true :: [false, true, true] ∧ (withBits quiet [false, true]).blockBits = [false] ++ true :: [] ∧
      [false].count true = quiet.inLen) := by decide

/-- A tree whose left spine has `n` internal nodes. -/
def spine : Nat → HTree
  | 0 => .leaf 0
  | n + 1 => .node (spine n) (.leaf 0)

theorem shape_spine (n : Nat) : (spine n).shape = List.replicate n false ++ true :: List.replicate n true := by
  induction n with
  | zero => rfl
  | succ n ih =>
    rw [spine, HTree.shape, ih, HTree.shape, List.replicate_succ, List.cons_append, List.append_assoc, List.cons_append,
      ← List.replicate_succ']

theorem test_meets_OpenTreeFailures_too_many :
    (spine 256).shape = List.replicate 255 false ++ false :: (true :: List.replicate 256 true) ∧
    (withBits quiet (List.replicate 256 false)).blockBits = List.replicate 255 false ++ false :: [] ∧
    (List.replicate 255 false).count true ≤ quiet.inLen ∧ (List.replicate 255 false).count false = 255 := by
  refine ⟨?_, ?_, by rw [List.count_replicate]; decide, by rw [List.count_replicate]; rfl⟩
  · rw [shape_spine, List.replicate_succ' (n := 255), List.append_assoc]; rfl
  · rw [staged_blockBits, List.replicate_succ' (n := 255)]

/-- A tree of three leaves and the deepest tree; the premise of TreeCountsAndDepth, CwDeriveRecordsPaths and NodeWindowReads. -/
theorem test_meets_TreeCountsAndDepth : Holds abc (withTree quiet abc) ∧ Holds (comb 255) (withTree quiet (comb 255)) :=
  ⟨holds_abc, holds_comb⟩

theorem test_meets_CwDeriveRecordsPaths :
    Holds abc (withTree quiet abc) ∧ abc.codeword 0x62 = some [true, false] ∧ abc.codeword 0x64 = none ∧ quiet.treeValid = false :=
  ⟨holds_abc, by decide⟩

theorem test_meets_DerivedTableIsPrefixFree :
    Holds abc (withTree quiet abc) ∧
      ∃ u, exec .cwDerive (withTree quiet abc) = .next u ∧ u.cwt.cwLen 0x61 ≠ 0 ∧ u.cwt.cwLen 0x62 ≠ 0 :=
  ⟨holds_abc, _, rfl, by decide, by decide⟩

/-- 256 bytes of a two-bit codeword fill the buffer exactly (V53). -/
theorem test_meets_EncBlockConcatenatesCodewords :
    let s := withInput (withTable quiet) (List.replicate 256 0x62)
    (∀ sym ∈ s.inputBytes, s.cwt.cwLen sym ≠ 0) ∧ (s.inputBytes.flatMap s.cwt.codeword).length ≤ s.cfg.bbufCap := by
  have h : (withTable quiet).cwt.codeword 98#8 = [true, false] := by decide
  refine ⟨?_, ?_⟩
  · rw [staged_inputBytes]
    intro sym hs
    rw [(List.mem_replicate.1 hs).2]
    decide
  · rw [staged_inputBytes]
    show ((List.replicate 256 98#8).flatMap (withTable quiet).cwt.codeword).length ≤ 512
    rw [List.length_flatMap, List.map_replicate, h, List.sum_replicate]
    decide

/-- One byte with no codeword (V51), and one whose two bits do not fit in what is left of a buffer of 512 bits. -/
theorem test_meets_EncBlockStopsAtFirstFailingByte :
    ((withInput (withTable quiet) [0x61, 0x7A]).inputBytes = [0x61] ++ 0x7A :: [] ∧
      (∀ x ∈ [0x61#8], (withTable quiet).cwt.cwLen x ≠ 0) ∧
      ([0x61#8].flatMap (withTable quiet).cwt.codeword).length ≤ quiet.cfg.bbufCap ∧ (withTable quiet).cwt.cwLen 0x7A = 0) ∧
    ((withInput (withTable quiet) (List.replicate 256 0x62 ++ 0x62 :: [])).inputBytes = List.replicate 256 0x62 ++ 0x62 :: [] ∧
      (∀ x ∈ List.replicate 256 0x62#8, (withTable quiet).cwt.cwLen x ≠ 0) ∧
      ((List.replicate 256 0x62#8).flatMap (withTable quiet).cwt.codeword).length = 512 ∧
      512 + (withTable quiet).cwt.cwLen 0x62 > quiet.cfg.bbufCap) := by
  have h : (withTable quiet).cwt.codeword 98#8 = [true, false] := by decide
  refine ⟨by decide, staged_inputBytes _ _, ?_, ?_, by decide⟩
  · intro x hx
    rw [(List.mem_replicate.1 hx).2]
    decide
  · rw [List.length_flatMap, List.map_replicate, h, List.sum_replicate]
    decide

theorem test_meets_EncBlockIsStateless :
    let s := withInput (withTable quiet) [0x61]
    let u := withBits (withTree s abc) [true, true]
    s.inputBytes = u.inputBytes ∧ s.cwt = u.cwt ∧ s.cfg.bbufCap = u.cfg.bbufCap ∧ s.err = u.err := ⟨rfl, rfl, rfl, rfl⟩

/-- The cursor on node 2, and the tree missing. -/
theorem test_meets_DecBlockWalksTree :
    Holds abc { withTree quiet abc with cursor := 2 } ∧ abc.sub 2 = some (.node (.leaf 0x62) (.leaf 0x63)) ∧
      (HTree.node (.leaf 0x62) (.leaf 0x63)).isNode = true ∧ quiet.treeValid = false :=
  ⟨⟨rfl, rfl, by decide, rfl, rfl, rfl⟩, rfl, rfl, rfl⟩

/-- S5: b's codeword cut after its first bit. -/
theorem test_meets_BlockBoundariesDoNotMatter :
    let s := withTree quiet abc
    let m1 := Memory.zeroed.setBits 0 [false, true]
    let m2 := Memory.zeroed.setBits 0 [false]
    let m := Memory.zeroed.setBits 0 [false, true, false]
    m.bits 0 (2 + 1) = m1.bits 0 2 ++ m2.bits 0 1 ∧ s.treeValid = true ∧
      ∃ s1 s2 u, exec .decBlock { s with bbuf := m1, bbufLen := 2 } = .next s1 ∧
        exec .decBlock { s1 with bbuf := m2, bbufLen := 1 } = .next s2 ∧
        exec .decBlock { s with bbuf := m, bbufLen := 2 + 1 } = .next u := ⟨by decide, rfl, _, _, _, rfl, rfl, rfl⟩

theorem test_meets_EncodeThenDecodeRoundTrip :
    let s := withInput (withTree quiet abc) [0x61, 0x62, 0x63, 0x61, 0x62]
    Holds abc s ∧ ∃ d, exec .cwDerive s = .next d ∧ d.cursor = 0 ∧ (∀ sym ∈ d.inputBytes, sym ∈ abc.alphabet) ∧
      (d.inputBytes.flatMap d.cwt.codeword).length ≤ d.cfg.bbufCap :=
  ⟨⟨rfl, rfl, by decide, rfl, rfl, rfl⟩, _, rfl, rfl, by decide, by decide⟩

/-- The least and the greatest parameters R9 allows; the premises of RegistersReadBack and of the windows' statements. -/
theorem test_meets_RegistersReadBack :
    quiet.busy = false ∧ quiet.cfg.Ok ∧ Config.Ok ⟨8, 256, 512, 0⟩ ∧ Config.Ok ⟨16384, 1048576, 1048576, 0x400000⟩ := by decide

/-- The premise of StatusFieldsReadBack, CtrlAndStatusWrites, ReadsHaveNoSideEffect, MisshapenAccessesStop and
ResetInputClearsRegisters: no command pending, or one that waits longer. -/
theorem test_meets_hostMoves : quiet.hostMoves ∧ (pendingWith 0x0 1).hostMoves := by
  constructor
  · intro h; cases h
  · intro _; decide

theorem test_meets_InfoFieldsReadBack : Inv (withTree quiet abc) ∧ (withTree quiet abc).busy = false := ⟨inv_loaded, rfl⟩

/-- Each clause of LengthWritesAreLegalOnly at its edge (V14, V15). -/
theorem test_meets_LengthWritesAreLegalOnly :
    (512#64).toNat ≤ quiet.cfg.bbufCap ∧ quiet.cfg.bbufCap < (513#64).toNat ∧ (512#64).toNat ≤ quiet.cfg.ibufSize ∧
      quiet.cfg.ibufSize < (513#64).toNat := by decide

theorem test_meets_BbufWindowIsMasked : quiet.busy = false ∧ quiet.cfg.Ok ∧ 7 < quiet.cfg.bbufWords := by decide

theorem test_meets_ByteBufferWindows :
    quiet.busy = false ∧ quiet.cfg.Ok ∧ 8 * 63 < quiet.cfg.ibufSize ∧ 8 * 63 < quiet.cfg.obufSize := by decide

theorem test_meets_CwtWindowEntries : quiet.busy = false ∧ 3 < 4 := by decide

/-- A leaf, an internal node, a slot beyond the tree, and no tree. -/
theorem test_meets_NodeWindowReads :
    Holds abc (withTree quiet abc) ∧ abc.sub 4 = some (.leaf 0x63) ∧ abc.sub 0 = some abc ∧
      ((withTree quiet abc).treeValid = true ∧ (withTree quiet abc).nodeCount ≤ 5) ∧ quiet.treeValid = false :=
  ⟨holds_abc, by decide⟩

/-- The first and last offset of each reserved range and of each read-only range, with the parameters of the vectors. -/
theorem test_meets_ReservedAndReadOnlyOffsets :
    (∀ off ∈ [0x70, 0x3FF8, 0x4028, 0x7FF8, 0x8FF8, 0xFFFF8, 0x100040, 0x1FFFF8, 0x200200, 0x2FFFF8, 0x300200, 0x3FFFF8],
      ReservedOffset quiet.cfg off) ∧
    ∀ off ∈ [0x00, 0x68, 0x8000, 0x8FF0, 0x300000, 0x3001F8], ReadOnlyOffset quiet.cfg off := by
  unfold ReservedOffset ReadOnlyOffset
  decide

theorem test_meets_ReadsHaveNoSideEffect : ∃ t, step (quiet.asks (.read 0x8000 8)) = .next t := ⟨_, rfl⟩

/-- Each clause of AccessesWhileBusy: a register named and one not named. -/
theorem test_meets_AccessesWhileBusy :
    ((pendingWith 0x0 1).busy = true ∧ (pendingWith 0x0 1).engineDelay ≠ 0) ∧
    0x28 ∈ [0x00, 0x08, 0x10, 0x18, 0x20, 0x28] ∧ 0x3FFFF8 ∉ [0x00, 0x08, 0x10, 0x18, 0x20, 0x28] ∧ 0x20 ∈ [0x18, 0x20, 0x28] ∧
    0x00 ∉ [0x18, 0x20, 0x28] := by decide

/-- Each clause of MisshapenAccessesStop: a narrow access, an unaligned one, and one just past the window. -/
theorem test_meets_MisshapenAccessesStop :
    (0x28 = quiet.cfg.base + 0x28 ∧ (4 ≠ 8 ∨ 0x28 % 8 ≠ 0)) ∧ (0x29 = quiet.cfg.base + 0x29 ∧ (8 ≠ 8 ∨ 0x29 % 8 ≠ 0)) ∧
    (0x400000 < quiet.cfg.base ∨ quiet.cfg.base + 0x400000 ≤ 0x400000) := by decide

theorem test_meets_InterruptFollowsDone :
    (∃ t, exec .nop quiet = .next t) ∧ (∃ t, HostWrites quiet 0x20 0 t) ∧ (∃ t, HostWrites quiet 0x28 2 t) ∧
      ∃ t, HostWrites quiet 0x18 1 t := ⟨⟨_, rfl⟩, ⟨_, rfl⟩, ⟨_, rfl⟩, ⟨_, rfl⟩⟩

theorem test_meets_ResetInputClearsRegisters : (pendingWith 0x10 2).hostMoves := by intro _; decide

theorem test_meets_InvariantHoldsAfterReset : Config.Ok ⟨16384, 1048576, 1048576, 0x400000⟩ := by decide

theorem test_meets_EveryStepKeepsInvariant : Inv pendingDecode ∧ ∃ t, step pendingDecode = .next t := ⟨inv_pendingDecode, _, rfl⟩

theorem test_meets_OnlyBadAccessesStop :
    Inv (quiet.asks (.read 0x28 4)) ∧ ∀ t, step (quiet.asks (.read 0x28 4)) ≠ .next t := by
  obtain ⟨a, b, c, d, e, f, g, h, i, j, k, l, m⟩ := inv_quiet
  refine ⟨⟨a, b, c, d, ?_, f, g, h, i, j, k, l, m⟩, ?_⟩
  · intro h; cases h
  · intro t h; cases h

end Sys2Proof.Tests
end

section
/-! SUPPORT. The size and paths of a loaded tree, what CW_DERIVE and DEC_BLOCK do with one, that no command stops in a state of
the invariant, and the stops of a host action. -/

namespace Sys2Proof.Machine

/-! ### The counts of a loaded tree (R42) -/

theorem Holds.two_le_leaves {t : HTree} {s : State} (h : Holds t s) : 2 ≤ t.leaves := t.isNode_iff.1 h.isNode

theorem Holds.length_nodes {t : HTree} {s : State} (h : Holds t s) : s.nodes.length = s.nodeCount := by
  rw [h.nodes, h.nodeCount, HTree.length_arena]

/-- A path of a loaded tree has an edge, for the root is internal, and is shorter than the number of leaves (R8). -/
theorem Holds.length_path_bounds {t : HTree} {s : State} (h : Holds t s) {x : Byte × List Bool} (hx : x ∈ t.paths) :
    1 ≤ x.2.length ∧ x.2.length ≤ 255 := by
  have hpos : 0 < x.2.length := List.length_pos_iff.2 (HTree.path_ne_nil h.isNode hx)
  have hlt := HTree.length_path hx
  have hmax := h.leaves
  omega

/-! ### The commands in states with a loaded tree -/

/-- With a tree loaded CW_DERIVE records the tree's paths in a cleared table (R136). -/
theorem Holds.exec_cwDerive {t : HTree} {s : State} (h : Holds t s) :
    exec .cwDerive s = .next { s with cwt := Memory.zeroed.setCodewords t.paths }.complete := by
  have hnodes : s.nodes.take s.nodeCount = t.arena 0 := by
    rw [← h.length_nodes, List.take_length, h.nodes]
  simp [exec, execCwDerive, h.valid, hnodes, deriveFrom_tree]

/-- A cursor on an internal node stands at an internal subtree (R43). -/
theorem Holds.sub_cursor {t : HTree} {s : State} (h : Holds t s) (hc : s.cursorInternal) :
    ∃ cur, t.sub s.cursor = some cur ∧ cur.isNode = true := by
  obtain ⟨l, r, hnode⟩ := hc
  have hlt : s.cursor < t.size := by
    by_contra hge
    simp [State.node, h.nodeCount, hge] at hnode
  obtain ⟨cur, hcur⟩ := t.sub_of_lt s.cursor hlt
  refine ⟨cur, hcur, ?_⟩
  cases cur with
  | leaf sym => simp [h.node_eq hcur, HTree.rootNode] at hnode
  | node a b => rfl

/-- With a tree loaded and the cursor at an internal subtree DEC_BLOCK walks the tree over the bit buffer (R161). -/
theorem Holds.exec_decBlock {t cur : HTree} {s : State} (h : Holds t s) (hc : t.sub s.cursor = some cur)
    (hn : cur.isNode = true) :
    ∃ c, t.sub c = some (t.walk cur s.blockBits).2 ∧
      exec .decBlock s = .next { s with
        obuf := s.obuf.putBytes 0 (t.walk cur s.blockBits).1
        outLen := (t.walk cur s.blockBits).1.length
        cursor := c }.complete := by
  obtain ⟨c, hwalk, hsub⟩ := decodeCore_walk h cur s.cursor s.blockBits hc hn
  have hnode : State.node { s with outLen := 0 } = s.node := rfl
  exact ⟨c, hsub, by
    simp only [exec, execDecBlock, if_pos h.valid, State.decodeBits_eq, hnode, hwalk, Option.map_some, Nat.zero_add]⟩

/-! ### Which steps give no next state -/

/-- No command stops in a state of the invariant: only CW_DERIVE and DEC_BLOCK can, and the loaded tree and the internal cursor
rule it out (R48, R108). -/
theorem Inv.exec_next {s : State} (h : Inv s) (i : Instr) : ∃ t, exec i s = .next t := by
  cases i with
  | nop | cwClear | decReset | pkClear => exact ⟨_, rfl⟩
  | treeLoad =>
    simp only [exec, execTreeLoad]
    split <;> exact ⟨_, rfl⟩
  | cwDerive =>
    cases hv : s.treeValid with
    | false => exact ⟨s.raise Err.noTree, by simp [exec, execCwDerive, hv]⟩
    | true =>
      obtain ⟨⟨t, ht⟩, -⟩ := h.loaded hv
      exact ⟨_, ht.exec_cwDerive⟩
  | encBlock =>
    simp only [exec, execEncBlock]
    split <;> exact ⟨_, rfl⟩
  | decBlock =>
    cases hv : s.treeValid with
    | false => exact ⟨s.raise Err.noTree, by simp [exec, execDecBlock, hv]⟩
    | true =>
      obtain ⟨⟨t, ht⟩, hcursor⟩ := h.loaded hv
      obtain ⟨cur, hcur, hn⟩ := ht.sub_cursor hcursor
      obtain ⟨c, -, hexec⟩ := ht.exec_decBlock hcur hn
      exact ⟨_, hexec⟩
  | pkAppend nbits =>
    simp only [exec, execPkAppend, execIllegal]
    split_ifs <;> exact ⟨_, rfl⟩
  | pkGet index =>
    simp only [exec, execPkGet]
    split_ifs <;> exact ⟨_, rfl⟩
  | pkTruncate count =>
    simp only [exec, execPkTruncate]
    split_ifs <;> exact ⟨_, rfl⟩

/-- The engine's step gives a next state in every state of the invariant (R104, R107). -/
theorem Inv.engineStep_next {s : State} (h : Inv s) : ∃ t, engineStep s = .next t := by
  obtain ⟨i, -, hrun⟩ | ⟨e, -, hrun⟩ := engineStep_cases s
  · rw [hrun]
    exact h.exec_next i
  · exact ⟨_, hrun⟩

/-- The outcomes of an action of the host: a next state, or one of the three stops of an access the spec gives no meaning. -/
theorem hostAct_next_or_stop (a : HostAction) (s : State) :
    (∃ t, hostAct a s = .next t) ∨ hostAct a s = .fault .outsideWindow ∨ hostAct a s = .refused .accessShape ∨
      hostAct a s = .refused .writeWhileBusy := by
  cases a with
  | read addr width =>
    obtain h | h | ⟨_, _, _, _, _, h⟩ := hostRead_cases addr width s
    · exact .inr (.inl h)
    · exact .inr (.inr (.inl h))
    · exact .inl ⟨_, h⟩
  | write addr width v =>
    obtain h | h | ⟨h, _⟩ | ⟨_, _, _, _, _, _, h⟩ := hostWrite_cases addr width v s
    · exact .inr (.inl h)
    · exact .inr (.inr (.inl h))
    · exact .inr (.inr (.inr h))
    · exact .inl ⟨_, h⟩
  | wait | reset => exact .inl ⟨_, rfl⟩

end Sys2Proof.Machine
end

section
/-! The statements of 00_scope.md: the counts of a loaded tree (R8, R42) and the stops of a step (R6, R51, R196). -/

namespace Sys2Proof.Machine

/-- Settles O27: a full binary tree has one leaf more than internal nodes (`HTree.size_eq`), and its paths are shorter than its
number of leaves. -/
theorem treeCountsAndDepth : Obligations.TreeCountsAndDepth := by
  intro t s h
  have hsize := t.size_eq
  have hmin := h.two_le_leaves
  have hmax := h.leaves
  rw [h.leafCount, h.length_nodes, h.nodeCount]
  exact ⟨by omega, hmin, hmax, by omega, rfl, fun _ hx => h.length_path_bounds hx⟩

/-- Settles O53: of what a step can do (`step_cases`), the engine's step and an idle turn give a next state, so a step that gives
none is an action of the host, and one of its three stops. -/
theorem onlyBadAccessesStop : Obligations.OnlyBadAccessesStop := by
  intro s hinv hstop
  obtain ⟨-, hstep⟩ | ⟨-, -, hstep⟩ | ⟨a, rest, -, -, hstep⟩ := step_cases s
  · obtain ⟨t, ht⟩ := hinv.engineStep_next
    exact absurd (hstep.trans ht) (hstop t)
  · exact absurd hstep (hstop s)
  · rw [hstep] at hstop ⊢
    exact (hostAct_next_or_stop a (s.popAction rest)).resolve_left fun ⟨t, ht⟩ => hstop t ht

end Sys2Proof.Machine
end

section
/-! SUPPORT. What a command can do, said once: what it leaves before its completion, with or without an error (R103, R105). -/

namespace Sys2Proof.Machine

/-- Command `i` succeeds in `s`, and leaves this state before its completion. -/
inductive Effect (s : State) : Instr → State → Prop where
  | nop : Effect s .nop s
  | treeLoad (w : Walk) (h : loadTree s.blockBits s.inputBytes = .ok w) : Effect s .treeLoad (s.installTree w)
  | cwClear : Effect s .cwClear { s with cwt := Memory.zeroed }
  | cwDerive (m : Memory) (hv : s.treeValid = true)
      (h : deriveFrom (s.nodes.take s.nodeCount) 0 (s.nodes.take s.nodeCount) Memory.zeroed = some m) :
      Effect s .cwDerive { s with cwt := m }
  | encBlock (bits : List Bool) (hlen : bits.length ≤ s.cfg.bbufCap)
      (h : encodeFrom 0 s.inputBytes s.clearBbuf = (s.clearBbuf.appendBits bits, none)) :
      Effect s .encBlock (s.clearBbuf.appendBits bits)
  | decBlock (c : Nat) (bytes : List Byte) (hv : s.treeValid = true)
      (h : decodeCore s.node s.cursor s.blockBits = some (c, bytes)) :
      Effect s .decBlock { s with obuf := s.obuf.putBytes 0 bytes, outLen := bytes.length, cursor := c }
  | decReset : Effect s .decReset { s with cursor := 0 }
  | pkClear : Effect s .pkClear s.clearBbuf
  | pkAppend (n : BitVec 7) (hn : n.toNat ≤ 64) (h : s.bbufLen + n.toNat ≤ s.cfg.bbufCap) :
      Effect s (.pkAppend n) (s.appendBits (s.pkBits n.toNat))
  | pkGet (k : Count32) (h : k.toNat < s.bbufLen) :
      Effect s (.pkGet k) { s with result := flagAt (s.bbuf.bit k.toNat) 0 }
  | pkTruncate (n : Count32) (h : n.toNat ≤ s.bbufLen) :
      Effect s (.pkTruncate n) { s with
        bbuf := s.bbuf.setBits (s.bbufLen - n.toNat) (List.replicate n.toNat false)
        bbufLen := s.bbufLen - n.toNat }

/-- Command `i` fails in `s` with this error, and leaves this state before its completion. -/
inductive Failure (s : State) : Instr → State → Err → Prop where
  | treeLoad (sub index : Nat) (h : loadTree s.blockBits s.inputBytes = .error (sub, index)) :
      Failure s .treeLoad s.dropTree (Err.corruptTree sub index)
  | cwDerive (hv : s.treeValid = false) : Failure s .cwDerive s Err.noTree
  | encBlock (bits : List Bool) (e : Err) (hlen : bits.length ≤ s.cfg.bbufCap)
      (h : encodeFrom 0 s.inputBytes s.clearBbuf = (s.clearBbuf.appendBits bits, some e))
      (he : ∃ k sym, e = Err.noCodeword k sym ∨ e = Err.encodeCapacity k sym) :
      Failure s .encBlock (s.clearBbuf.appendBits bits) e
  | decBlock (hv : s.treeValid = false) : Failure s .decBlock s Err.noTree
  | pkAppendIllFormed (n : BitVec 7) (hn : 64 < n.toNat) :
      Failure s (.pkAppend n) s (Err.illegal (.nbitsRange n 0x41#8))
  | pkAppend (n : BitVec 7) (hn : n.toNat ≤ 64) (h : s.cfg.bbufCap < s.bbufLen + n.toNat) :
      Failure s (.pkAppend n) s (Err.appendCapacity s.bbufLen)
  | pkGet (k : Count32) (h : s.bbufLen ≤ k.toNat) : Failure s (.pkGet k) s (Err.getRange k)
  | pkTruncate (n : Count32) (h : s.bbufLen < n.toNat) : Failure s (.pkTruncate n) s (Err.truncateRange n)

theorem Err.illegal_code (e : DecodeError) : (Err.illegal e).code = 6 := by cases e <;> rfl

/-- Every error a command records has a code (R170). -/
theorem Failure.code_ne_zero {s u : State} {i : Instr} {e : Err} (h : Failure s i u e) : e.code ≠ 0 := by
  cases h with
  | encBlock bits e hlen h he => obtain ⟨k, sym, rfl | rfl⟩ := he <;> simp [Err.noCodeword, Err.encodeCapacity]
  | pkAppendIllFormed n hn => simp [Err.illegal_code]
  | _ => simp [Err.corruptTree, Err.noTree, Err.appendCapacity, Err.getRange, Err.truncateRange]

/-- Everything ENC_BLOCK can do: it fills the cleared buffer with bits that fit, and succeeds or fails (R150, R151). -/
theorem execEncBlock_cases {s t : State} (h : execEncBlock s = .next t) :
    (∃ u, Effect s .encBlock u ∧ t = u.complete) ∨ ∃ u e, Failure s .encBlock u e ∧ t = u.raise e := by
  obtain ⟨bits, hstate, hfit, herr⟩ := encodeFrom_cases s.inputBytes 0 s.clearBbuf
  have hlen : bits.length ≤ s.cfg.bbufCap := by simpa using hfit
  simp only [execEncBlock] at h
  split at h
  · next u hrun =>
    rw [hrun] at hstate
    subst hstate
    cases h
    exact .inl ⟨_, .encBlock bits hlen hrun, rfl⟩
  · next u e hrun =>
    rw [hrun] at hstate herr
    subst hstate
    cases h
    exact .inr ⟨_, e, .encBlock bits e hlen hrun (by simpa using herr), rfl⟩

/-- Everything DEC_BLOCK can do when it gives a next state: NO_TREE, or the decoder's loop over the bit buffer (R161). -/
theorem execDecBlock_cases {s t : State} (h : execDecBlock s = .next t) :
    (∃ u, Effect s .decBlock u ∧ t = u.complete) ∨ ∃ u e, Failure s .decBlock u e ∧ t = u.raise e := by
  have hnode : State.node { s with outLen := 0 } = s.node := rfl
  simp only [execDecBlock, State.decodeBits_eq, hnode] at h
  split at h
  · next hv =>
    cases hrun : decodeCore s.node s.cursor s.blockBits with
    | none => simp [hrun] at h
    | some x =>
      simp only [hrun, Option.map_some, Nat.zero_add] at h
      cases h
      exact .inl ⟨_, .decBlock x.1 x.2 hv hrun, rfl⟩
  · next hv =>
    cases h
    exact .inr ⟨s, _, .decBlock (by simpa using hv), rfl⟩

/-- Everything a command can do when it gives a next state: its effect and then its completion, or the part of it that a failure
leaves and then the error. -/
theorem exec_cases {i : Instr} {s t : State} (h : exec i s = .next t) :
    (∃ u, Effect s i u ∧ t = u.complete) ∨ ∃ u e, Failure s i u e ∧ t = u.raise e := by
  cases i with
  | nop => cases h; exact .inl ⟨_, .nop, rfl⟩
  | cwClear => cases h; exact .inl ⟨_, .cwClear, rfl⟩
  | decReset => cases h; exact .inl ⟨_, .decReset, rfl⟩
  | pkClear => cases h; exact .inl ⟨_, .pkClear, rfl⟩
  | encBlock => exact execEncBlock_cases h
  | decBlock => exact execDecBlock_cases h
  | treeLoad =>
    simp only [exec, execTreeLoad] at h
    split at h <;> cases h
    · next e hload => exact .inr ⟨_, _, .treeLoad e.1 e.2 hload, rfl⟩
    · next w hload => exact .inl ⟨_, .treeLoad w hload, rfl⟩
  | cwDerive =>
    simp only [exec, execCwDerive] at h
    split at h
    · next hv =>
      split at h <;> cases h
      next m hm => exact .inl ⟨_, .cwDerive m hv hm, rfl⟩
    · next hv => cases h; exact .inr ⟨_, _, .cwDerive (by simpa using hv), rfl⟩
  | pkAppend n =>
    simp only [exec, execPkAppend, execIllegal] at h
    split at h
    · next hn => cases h; exact .inr ⟨_, _, .pkAppendIllFormed n hn, rfl⟩
    · next hn =>
      split at h <;> cases h
      · next hc => exact .inr ⟨_, _, .pkAppend n (by omega) (by omega), rfl⟩
      · next hc => exact .inl ⟨_, .pkAppend n (by omega) (by omega), rfl⟩
  | pkGet k =>
    simp only [exec, execPkGet] at h
    split at h <;> cases h
    · next hk => exact .inr ⟨_, _, .pkGet k (by omega), rfl⟩
    · next hk => exact .inl ⟨_, .pkGet k (by omega), rfl⟩
  | pkTruncate n =>
    simp only [exec, execPkTruncate] at h
    split at h <;> cases h
    · next hn => exact .inr ⟨_, _, .pkTruncate n (by omega), rfl⟩
    · next hn => exact .inl ⟨_, .pkTruncate n (by omega), rfl⟩

/-- A completed command is no longer pending (R103). -/
theorem exec_busy {i : Instr} {s t : State} (h : exec i s = .next t) : t.busy = false := by
  obtain ⟨u, -, rfl⟩ | ⟨u, e, -, rfl⟩ := exec_cases h <;> rfl

/-- The engine's step ends the pending command, legal or not (R104, R107). -/
theorem engineStep_busy {s t : State} (h : engineStep s = .next t) : t.busy = false := by
  obtain ⟨i, -, hrun⟩ | ⟨e, -, hrun⟩ := engineStep_cases s <;> rw [hrun] at h
  · exact exec_busy h
  · cases h; rfl

/-! ### TREE_LOAD accepts only trees -/

/-- The four checks a shape and an alphabet pass when TREE_LOAD accepts them (R131). -/
theorem loadTree_checks {shape : List Bool} {alphabet : List Byte} {w : Walk} (h : loadTree shape alphabet = .ok w) :
    loadWalk alphabet shape Walk.start = .ok w ∧ (∀ sym, w.t[0]? ≠ some (.leaf sym)) ∧
      shape.length ≤ w.k ∧ alphabet.length ≤ w.a := by
  simp only [loadTree] at h
  split at h
  · cases h
  · next v hwalk =>
    split at h
    · cases h
    · next hroot =>
      split_ifs at h with hshape halphabet
      cases h
      exact ⟨hwalk, hroot, by omega, by omega⟩

/-- TREE_LOAD accepts only the serialized form of one tree of 2 to 256 leaves, and its walk ends with that tree's counts and slots
(R131, R134). -/
theorem loadTree_ok {shape : List Bool} {alphabet : List Byte} {w : Walk} (h : loadTree shape alphabet = .ok w) :
    ∃ t : HTree, shape = t.shape ∧ alphabet = t.alphabet ∧ t.isNode = true ∧ t.leaves ≤ 256 ∧ w.k = t.size ∧
      w.nleaf = t.leaves ∧ w.t = t.scratch := by
  obtain ⟨hwalk, hroot, hshape, halphabet⟩ := loadTree_checks h
  obtain ⟨ts, rest, more, hone, rfl, halpha, hk, ha, hleaf, hslots, hint, hmax⟩ :=
    loadWalk_ok alphabet shape Walk.start w (by decide) hwalk
  obtain ⟨t, rfl⟩ := List.length_eq_one_iff.1 hone
  simp [Walk.start] at halpha hk ha hleaf hslots hint hshape
  subst halpha
  simp at halphabet
  obtain rfl := List.length_eq_zero_iff.1 (show rest.length = 0 by omega)
  obtain rfl := List.length_eq_zero_iff.1 (show more.length = 0 by omega)
  refine ⟨t, by simp, by simp, ?_, by omega, hk, hleaf, hslots⟩
  cases t with
  | leaf sym => exact absurd (by rw [hslots]; rfl) (hroot sym)
  | node l r => rfl

end Sys2Proof.Machine
end

section
/-! SUPPORT. The host's accesses as equations: what a read of a location returns, what a write of it leaves, and the fields of the
registers computed from the state. -/

namespace Sys2Proof.Machine

/-! ### One action of the host -/

/-- Everything an action of the host can do when it gives a next state. -/
theorem hostAct_cases {a : HostAction} {s t : State} (h : hostAct a s = .next t) :
    (∃ addr width r, a = .read addr width ∧ t = s.reply r) ∨
    (∃ off v, a = .write (s.cfg.base + off) 8 v ∧ off < 0x400000 ∧ off % 8 = 0 ∧
      (s.busy = true → (locate s.cfg off).writableWhileBusy = true) ∧ t = s.writeLoc v (locate s.cfg off)) ∨
    (a = .wait ∧ t = s) ∨ (a = .reset ∧ t = s.resetInput) := by
  cases a with
  | read addr width =>
    obtain hr | hr | ⟨off, -, -, -, -, hr⟩ := hostRead_cases addr width s <;> rw [hostAct, hr] at h <;> cases h
    exact .inl ⟨_, _, _, rfl, rfl⟩
  | write addr width v =>
    obtain hw | hw | ⟨hw, -⟩ | ⟨off, rfl, hoff, h8, rfl, hbusy, hw⟩ := hostWrite_cases addr width v s <;>
      rw [hostAct, hw] at h <;> cases h
    exact .inr (.inl ⟨off, v, rfl, hoff, h8, hbusy, rfl⟩)
  | wait => cases h; exact .inr (.inr (.inl ⟨rfl, rfl⟩))
  | reset => cases h; exact .inr (.inr (.inr ⟨rfl, rfl⟩))

/-- CMD lies at offset 0x20 alone, whatever the parameters. -/
theorem offset_of_locate_cmd {c : Config} {off : Nat} (h8 : off % 8 = 0) (h : locate c off = .cmd) : off = 0x20 := by
  by_cases hreg : off < 0x4000
  · have hk : ∀ k < 14, registerAt k = .cmd → k = 4 := by decide
    rw [locate_register c off hreg] at h
    by_cases h14 : off / 8 < 14
    · have := hk _ h14 h
      omega
    · rw [registerAt_of_ge _ (by omega)] at h
      cases h
  · simp only [locate, cwtAt] at h
    split_ifs at h

@[simp] theorem State.reply_busy (s : State) (r : Option Word) : (s.reply r).busy = s.busy := by cases r <;> rfl
@[simp] theorem State.reply_treeValid (s : State) (r : Option Word) : (s.reply r).treeValid = s.treeValid := by
  cases r <;> rfl

@[simp] theorem State.writeLoc_treeValid (s : State) (v : Word) (l : Loc) :
    (s.writeLoc v l).treeValid = s.treeValid := by
  cases l with
  | cmd | bbufLen | inLen => simp only [State.writeLoc]; split <;> rfl
  | _ => rfl

/-- Of the locations only CMD's write touches BUSY. -/
theorem State.writeLoc_busy (s : State) (v : Word) {l : Loc} (hl : l ≠ .cmd) : (s.writeLoc v l).busy = s.busy := by
  cases l with
  | cmd => exact absurd rfl hl
  | bbufLen | inLen => simp only [State.writeLoc]; split <;> rfl
  | _ => rfl

/-- BUSY rises only by a write at CMD's offset, whose word becomes LAST_CMD (R101). -/
theorem State.writeLoc_raises_busy {s : State} {v : Word} {off : Nat} (h8 : off % 8 = 0) (hb : s.busy = false)
    (hrise : (s.writeLoc v (locate s.cfg off)).busy = true) :
    off = 0x20 ∧ (s.writeLoc v (locate s.cfg off)).lastCmd = v := by
  by_cases hl : locate s.cfg off = .cmd
  · refine ⟨offset_of_locate_cmd h8 hl, ?_⟩
    rw [hl]
    simp [State.writeLoc, hb]
  · rw [s.writeLoc_busy v hl, hb] at hrise
    cases hrise

/-- A write never ends a pending command. -/
theorem State.writeLoc_busy_of_busy {s : State} (v : Word) (l : Loc) (hb : s.busy = true) :
    (s.writeLoc v l).busy = true := by
  by_cases hl : l = .cmd
  · simp [hl, State.writeLoc, hb]
  · rw [s.writeLoc_busy v hl, hb]

/-! ### Accepted accesses -/

theorem State.busRead_waited (s : State) (l : Loc) : s.waited.busRead l = s.busRead l := by cases l <;> rfl

/-- At the host's turn a read of an aligned offset returns what its location holds for the bus. -/
theorem hostReads_of_busRead {s : State} {off : Nat} {v : Word} (hm : s.hostMoves) (hoff : off < 0x400000 ∧ off % 8 = 0)
    (hv : s.busRead (locate s.cfg off) = some v) : HostReads s off v := by
  rw [HostReads, step_asks s _ hm (by simp), hostAct, ← s.waited_cfg, hostRead_eq s.waited off hoff.1 hoff.2,
    State.busRead_waited, s.waited_cfg, hv]
  rfl

/-- With no command pending a read returns what the location holds, and the block is as before. -/
theorem hostReads_idle {s : State} {off : Nat} {v : Word} {l : Loc} (hb : s.busy = false)
    (hoff : off < 0x400000 ∧ off % 8 = 0) (hl : locate s.cfg off = l) (hv : s.readLoc l = some v) : HostReads s off v :=
  hostReads_of_busRead (State.hostMoves_idle hb) hoff (by simp [State.busRead, hb, hl, hv])

/-- At the host's turn a write of an aligned offset is performed, unless a command is pending and the location refuses it. -/
theorem hostWrites_of_hostMoves {s : State} {off : Nat} {v : Word} {l : Loc} (hm : s.hostMoves)
    (hoff : off < 0x400000 ∧ off % 8 = 0) (hl : locate s.cfg off = l)
    (hw : s.busy = true → l.writableWhileBusy = true) : HostWrites s off v (s.waited.writeLoc v l) := by
  subst hl
  rw [HostWrites, step_asks s _ hm (by simp), hostAct, ← s.waited_cfg, hostWrite_eq s.waited off v hoff.1 hoff.2, if_neg]
  simpa using hw

/-- With no command pending every aligned write in the window is performed. -/
theorem hostWrites_idle {s : State} {off : Nat} {v : Word} {l : Loc} (hb : s.busy = false)
    (hoff : off < 0x400000 ∧ off % 8 = 0) (hl : locate s.cfg off = l) : HostWrites s off v (s.writeLoc v l) := by
  have h := hostWrites_of_hostMoves (v := v) (State.hostMoves_idle hb) hoff hl (by simp [hb])
  rwa [State.waited_idle hb] at h

/-- A write of 1 clears the flag (R28). -/
theorem and_not_eq_ite (b c : Bool) : (b && !c) = if c then false else b := by cases c <;> simp

/-! ### The fields of the registers -/

/-- A register of two fields, of `m` bits at bit 0 and of `n` bits at bit `j`. -/
def packFields {m n : Nat} (a : BitVec m) (b : BitVec n) (j : Nat) : Word := a.setWidth 64 ||| (b.setWidth 64 <<< j)

theorem getLsbD_packFields {m n : Nat} (a : BitVec m) (b : BitVec n) {j k : Nat} (hk : k < 64) :
    (packFields a b j).getLsbD k = (a.getLsbD k || decide (j ≤ k) && b.getLsbD (k - j)) := by
  simp [packFields, hk, ← decide_not]

/-- The two fields lie whole in the register, and its other bits are 0. -/
theorem extractLsb'_packFields {m n j : Nat} (a : BitVec m) (b : BitVec n) (hm : m ≤ j) (hj : j + n ≤ 64) :
    (packFields a b j).extractLsb' 0 m = a ∧ (packFields a b j).extractLsb' j n = b ∧
      (packFields a b j).extractLsb' m (j - m) = 0 ∧ (packFields a b j).extractLsb' (j + n) (64 - (j + n)) = 0 := by
  refine ⟨?_, ?_, ?_, ?_⟩ <;> apply BitVec.eq_of_getLsbD_eq <;> intro k hk <;>
    rw [BitVec.getLsbD_extractLsb', getLsbD_packFields a b (by omega), decide_eq_true hk, Bool.true_and]
  · simp [show ¬ j ≤ k by omega]
  · simp [a.getLsbD_of_ge (j + k) (by omega)]
  · simp [show ¬ j ≤ m + k by omega]
  · simp [a.getLsbD_of_ge (j + n + k) (by omega), b.getLsbD_of_ge (j + n + k - j) (by omega)]

theorem State.errInfoWord_eq (s : State) : s.errInfoWord = packFields s.errIndex s.errSym 32 := rfl

theorem State.treeInfoWord_eq (s : State) :
    s.treeInfoWord = packFields (BitVec.ofNat 10 s.nodeCount) (BitVec.ofNat 9 s.leafCount) 16 := rfl

theorem cfg0Word_eq (c : Config) :
    cfg0Word c = packFields (BitVec.ofNat 32 c.bbufWords) (BitVec.ofNat 32 c.ibufSize) 32 := rfl

theorem getLsbD_flagAt (b : Bool) {j : Nat} (hj : j < 64) (k : Nat) : (flagAt b j).getLsbD k = (decide (k = j) && b) := by
  by_cases hk : k = j
  · subst hk; simp [flagAt, hj]
  · have : k < j ∨ ¬ k - j = 0 := by omega
    rcases this with h | h <;> simp [flagAt, hk, h]

theorem flagAt_zero (b : Bool) : flagAt b 0 = if b then 1 else 0 := by cases b <;> rfl

/-- The flags of STATUS are bits 0 to 5, and bits 6 and 7 are reserved (R28). -/
theorem State.getLsbD_statusWord_flags (s : State) (k : Nat) (hk : k < 8) :
    s.statusWord.getLsbD k =
      (decide (k = 0) && s.busy || decide (k = 1) && s.done || decide (k = 2) && s.err || decide (k = 3) && s.treeValid ||
        decide (k = 4) && s.curAtRoot || decide (k = 5) && s.overrun) := by
  have h16 : k < 16 := by omega
  simp [State.statusWord, getLsbD_flagAt, hk, h16]

/-- Above the flags STATUS holds ERR_CODE and above that ERR_SUB (R28). -/
theorem State.getLsbD_statusWord_codes (s : State) (k : Nat) (hk : k < 56) :
    s.statusWord.getLsbD (8 + k) = (s.errCode.getLsbD k || decide (8 ≤ k) && s.errSub.getLsbD (k - 8)) := by
  have hflag : ∀ (b : Bool) (j : Nat), j < 8 → (flagAt b j).getLsbD (8 + k) = false := by
    intro b j hj
    rw [getLsbD_flagAt b (by omega), decide_eq_false (by omega), Bool.false_and]
  have hlt : 8 + k < 64 := by omega
  have hsub : 8 + k - 16 = k - 8 := by omega
  have hge : (!decide (8 + k < 16)) = decide (8 ≤ k) := by
    rw [← decide_not, decide_eq_decide]
    omega
  simp (disch := decide) only [State.statusWord, BitVec.getLsbD_or, hflag, Bool.false_or]
  simp [hlt, hsub, hge]

/-- The fields of STATUS above the flags, and the reserved ones (R28). -/
theorem State.extractLsb'_statusWord (s : State) :
    s.statusWord.extractLsb' 6 2 = 0 ∧ s.statusWord.extractLsb' 8 8 = s.errCode ∧
      s.statusWord.extractLsb' 16 8 = s.errSub ∧ s.statusWord.extractLsb' 24 40 = 0 := by
  refine ⟨?_, ?_, ?_, ?_⟩ <;> apply BitVec.eq_of_getLsbD_eq <;> intro k hk <;> rw [BitVec.getLsbD_extractLsb']
  · rw [s.getLsbD_statusWord_flags _ (by omega)]
    obtain rfl | rfl : k = 0 ∨ k = 1 := by omega
    · simp
    · simp
  · simp [s.getLsbD_statusWord_codes k (by omega), hk]
  · rw [show 16 + k = 8 + (8 + k) by omega, s.getLsbD_statusWord_codes (8 + k) (by omega)]
    simp [hk]
  · rw [show 24 + k = 8 + (16 + k) by omega, s.getLsbD_statusWord_codes (16 + k) (by omega),
      BitVec.getLsbD_of_ge s.errCode _ (by omega), BitVec.getLsbD_of_ge s.errSub _ (by omega)]
    simp

/-- STATUS after a reset: CUR_AT_ROOT alone is 1 (R49). -/
theorem State.statusWord_afterReset (cfg : Config) (draw : Nat) (queue : List HostAction) (replies : List Word) :
    (State.afterReset cfg draw queue replies).statusWord = 0x10 := by
  simp [State.statusWord, State.afterReset, State.curAtRoot, flagAt]

end Sys2Proof.Machine
end

section
/-! SUPPORT. The invariant of R48 under each update of the state: an update keeps it when it keeps the part it touches. -/

namespace Sys2Proof.Machine

/-! ### The RAMs a reset or a clear leaves -/

theorem Memory.ok_zeroed (size : Nat) : Memory.zeroed.wf ∧ Memory.zeroed.Within size :=
  ⟨Memory.wf_zeroed, Memory.within_zeroed size⟩

theorem Memory.ok_unlisted (f : Fill) (size : Nat) : Memory.wf ⟨f, []⟩ ∧ Memory.Within ⟨f, []⟩ size := by
  simp [Memory.wf, Memory.Within]

/-! ### The tree -/

/-- The fields the invariant's statement about the tree reads (R41 to R43). -/
def State.treePart (s : State) : Bool × List Node × Nat × Nat × Nat :=
  (s.treeValid, s.nodes, s.nodeCount, s.leafCount, s.cursor)

theorem Holds.of_treePart {t : HTree} {s u : State} (h : Holds t s) (hu : u.treePart = s.treePart) : Holds t u := by
  simp only [State.treePart, Prod.mk.injEq] at hu
  obtain ⟨hvalid, hnodes, hcount, hleaves, -⟩ := hu
  exact ⟨hvalid.trans h.valid, h.isNode, h.leaves, hnodes.trans h.nodes, hcount.trans h.nodeCount, hleaves.trans h.leafCount⟩

theorem State.cursorInternal_of_treePart {s u : State} (h : s.cursorInternal) (hu : u.treePart = s.treePart) :
    u.cursorInternal := by
  simp only [State.treePart, Prod.mk.injEq] at hu
  obtain ⟨-, hnodes, hcount, -, hcursor⟩ := hu
  simpa only [State.cursorInternal, State.node, hnodes, hcount, hcursor] using h

theorem Inv.loaded_of_treePart {s u : State} (h : Inv s) (hu : u.treePart = s.treePart) (hv : u.treeValid = true) :
    (∃ t, Holds t u) ∧ u.cursorInternal := by
  obtain ⟨⟨t, ht⟩, hcursor⟩ := h.loaded ((congrArg Prod.fst hu).symm.trans hv)
  exact ⟨⟨t, ht.of_treePart hu⟩, State.cursorInternal_of_treePart hcursor hu⟩

/-- The node at an internal subtree's index is internal. -/
theorem Holds.cursorInternal {t cur : HTree} {s : State} (h : Holds t s) (hc : t.sub s.cursor = some cur)
    (hn : cur.isNode = true) : s.cursorInternal := by
  cases cur with
  | leaf sym => cases hn
  | node l r => exact ⟨_, _, h.node_eq hc⟩

/-- In the invariant the counts and the cursor are at most those of a tree of 256 leaves (R8, R42, R43). -/
theorem Inv.counts_bounds {s : State} (h : Inv s) : s.nodeCount ≤ 511 ∧ s.leafCount ≤ 256 ∧ s.cursor ≤ 510 := by
  cases hv : s.treeValid with
  | false =>
    obtain ⟨hcursor, hnode, hleaf⟩ := h.empty hv
    omega
  | true =>
    obtain ⟨⟨t, ht⟩, hcursor⟩ := h.loaded hv
    obtain ⟨cur, hsub, -⟩ := ht.sub_cursor hcursor
    have hend := HTree.sub_size hsub
    have hpos := cur.size_pos
    have hsize := t.size_eq
    have hmax := ht.leaves
    rw [ht.nodeCount, ht.leafCount]
    omega

/-! ### One lemma per part of the state -/

section
variable {s : State} (h : Inv s)
include h

/-- The registers and the model's own fields that the invariant leaves free. -/
theorem Inv.setFree (irqEn overrun : Bool) (lastCmd result pkData : Word) (draws engineDelay : Nat)
    (hostQueue : List HostAction) (replies : List Word) :
    Inv { s with
      irqEn := irqEn, overrun := overrun, lastCmd := lastCmd, result := result, pkData := pkData, draws := draws
      engineDelay := engineDelay, hostQueue := hostQueue, replies := replies } :=
  { h with loaded := h.loaded_of_treePart rfl }

theorem Inv.setBbuf {m : Memory} {n : Nat} (hn : n ≤ s.cfg.bbufCap) (hm : m.wf ∧ m.Within (8 * s.cfg.bbufWords)) :
    Inv { s with bbuf := m, bbufLen := n } :=
  { h with bbuf := hm, bbufLen := hn, loaded := h.loaded_of_treePart rfl }

theorem Inv.setIbuf {m : Memory} {n : Nat} (hn : n ≤ s.cfg.ibufSize) (hm : m.wf ∧ m.Within s.cfg.ibufSize) :
    Inv { s with ibuf := m, inLen := n } :=
  { h with ibuf := hm, inLen := hn, loaded := h.loaded_of_treePart rfl }

theorem Inv.setCwt {m : Memory} (hm : m.wf ∧ m.Within 0x4000) : Inv { s with cwt := m } :=
  { h with cwt := hm, loaded := h.loaded_of_treePart rfl }

theorem Inv.setObuf {m : Memory} {n : Nat} (hn : n ≤ s.cfg.obufSize) (hm : m.wf ∧ m.Within s.cfg.obufSize) :
    Inv { s with obuf := m, outLen := n } :=
  { h with obuf := hm, outLen := hn, loaded := h.loaded_of_treePart rfl }

/-- The cursor may go to any internal node of the loaded tree; with no tree, only to 0. -/
theorem Inv.setCursor {c : Nat}
    (hc : s.treeValid = true → ∃ t cur, Holds t s ∧ t.sub c = some cur ∧ cur.isNode = true)
    (h0 : s.treeValid = false → c = 0) : Inv { s with cursor := c } :=
  { h with
    loaded := fun hv => by
      obtain ⟨t, cur, ht, hsub, hn⟩ := hc hv
      have hu : Holds t { s with cursor := c } :=
        ⟨ht.valid, ht.isNode, ht.leaves, ht.nodes, ht.nodeCount, ht.leafCount⟩
      exact ⟨⟨t, hu⟩, hu.cursorInternal hsub hn⟩
    empty := fun hv => ⟨h0 hv, (h.empty hv).2⟩ }

/-- With a tree loaded or not, the root is a place for the cursor. -/
theorem Inv.resetCursor : Inv { s with cursor := 0 } :=
  h.setCursor
    (fun hv => by
      obtain ⟨⟨t, ht⟩, -⟩ := h.loaded hv
      exact ⟨t, t, ht, t.sub_zero, ht.isNode⟩)
    fun _ => rfl

theorem Inv.dropTree : Inv s.dropTree :=
  { h with
    loaded := fun hv => by cases hv
    empty := fun _ => ⟨rfl, rfl, rfl⟩ }

/-- The tree of an accepted TREE_LOAD is a full binary tree in preorder, with the cursor at its root (R131, R132). -/
theorem Inv.installTree {w : Walk} {shape : List Bool} {alphabet : List Byte} (hw : loadTree shape alphabet = .ok w) :
    Inv (s.installTree w) := by
  obtain ⟨t, -, -, hnode, hmax, hk, hleaf, hslots⟩ := loadTree_ok hw
  have ht : Holds t (s.installTree w) :=
    ⟨rfl, hnode, hmax, by rw [State.installTree_nodes, hslots, linkTree_scratch], hk, hleaf⟩
  exact { h with
    loaded := fun _ => ⟨⟨t, ht⟩, ht.cursorInternal t.sub_zero hnode⟩
    empty := fun hv => by cases hv }

theorem Inv.complete : Inv s.complete :=
  { h with
    loaded := h.loaded_of_treePart rfl
    busy := fun hb => by cases hb
    pending := fun hb => by cases hb }

theorem Inv.raise {e : Err} (he : e.code ≠ 0) : Inv (s.raise e) :=
  { h with
    loaded := h.loaded_of_treePart rfl
    err := by simpa using he
    busy := fun hb => by cases hb
    pending := fun hb => by cases hb }

theorem Inv.issue (c : Word) : Inv (s.issue c) :=
  { h with
    loaded := h.loaded_of_treePart rfl
    err := by simp
    busy := fun _ => rfl
    pending := fun _ => ⟨rfl, rfl, rfl, rfl⟩ }

theorem Inv.ackStatus (v : Word) : Inv (s.ackStatus v) :=
  { h with
    loaded := h.loaded_of_treePart rfl
    busy := fun hb => by simp [h.busy hb] }

end

/-- The state after a reset, with any allowed parameters (R49). -/
theorem inv_afterReset {cfg : Config} (hc : cfg.Ok) (draw : Nat) (queue : List HostAction) (replies : List Word) :
    Inv (State.afterReset cfg draw queue replies) where
  cfg := hc
  bbufLen := Nat.zero_le _
  inLen := Nat.zero_le _
  outLen := Nat.zero_le _
  loaded := fun hv => by cases hv
  empty := fun _ => ⟨rfl, rfl, rfl⟩
  err := by simp [State.afterReset]
  busy := fun hb => by cases hb
  pending := fun hb => by cases hb
  cwt := Memory.ok_unlisted _ _
  bbuf := Memory.ok_unlisted _ _
  ibuf := Memory.ok_unlisted _ _
  obuf := Memory.ok_unlisted _ _

/-! ### The engine's step keeps the invariant -/

/-- The bit buffer holds `8 * BBUF_WORDS` bytes (R9, R45). -/
theorem bbufCap_eq (c : Config) : c.bbufCap = 8 * (8 * c.bbufWords) := by
  simp only [Config.bbufCap]; omega

section
variable {s : State} (h : Inv s)
include h

theorem Inv.clearBbuf : Inv s.clearBbuf := h.setBbuf (Nat.zero_le _) (Memory.ok_zeroed _)

theorem Inv.appendBits {bits : List Bool} (hfit : s.bbufLen + bits.length ≤ s.cfg.bbufCap) : Inv (s.appendBits bits) :=
  h.setBbuf hfit ⟨Memory.wf_setBits _ _ h.bbuf.1, Memory.within_setBits _ _ h.bbuf.2 (bbufCap_eq s.cfg ▸ hfit)⟩

/-- The table CW_DERIVE records is canonical and inside its window, for a tree's paths have at most 255 edges (R8, R136). -/
theorem Inv.deriveFrom_ok {m : Memory} (hv : s.treeValid = true)
    (hm : deriveFrom (s.nodes.take s.nodeCount) 0 (s.nodes.take s.nodeCount) Memory.zeroed = some m) :
    m.wf ∧ m.Within 0x4000 := by
  obtain ⟨⟨t, ht⟩, -⟩ := h.loaded hv
  have hnodes : s.nodes.take s.nodeCount = t.arena 0 := by rw [← ht.length_nodes, List.take_length, ht.nodes]
  rw [hnodes, deriveFrom_tree] at hm
  cases hm
  exact ⟨Memory.wf_setCodewords _ Memory.wf_zeroed,
    Memory.within_setCodewords _ (Memory.within_zeroed _) fun x hx => by have := ht.length_path_bounds hx; omega⟩

/-- DEC_BLOCK emits at most one byte a bit of the block, and OBUF has room for BBUF_CAP bytes (R9); its cursor stays on an
internal node. -/
theorem Inv.decode {c : Nat} {bytes : List Byte} (hv : s.treeValid = true)
    (hrun : decodeCore s.node s.cursor s.blockBits = some (c, bytes)) :
    Inv { s with obuf := s.obuf.putBytes 0 bytes, outLen := bytes.length, cursor := c } := by
  obtain ⟨⟨t, ht⟩, hcursor⟩ := h.loaded hv
  obtain ⟨cur, hcur, hn⟩ := ht.sub_cursor hcursor
  obtain ⟨c', hwalk, hsub⟩ := decodeCore_walk ht cur s.cursor s.blockBits hcur hn
  obtain ⟨rfl, rfl⟩ : c = c' ∧ bytes = (t.walk cur s.blockBits).1 := by simpa [hrun] using hwalk
  have hemit : (t.walk cur s.blockBits).1.length ≤ s.cfg.obufSize := by
    obtain ⟨-, -, ⟨-, hroom, -⟩, -⟩ := h.cfg
    calc (t.walk cur s.blockBits).1.length
        ≤ s.blockBits.length := t.length_walk cur _
      _ = s.bbufLen := Memory.length_bits _ _ _
      _ ≤ s.cfg.bbufCap := h.bbufLen
      _ ≤ s.cfg.obufSize := hroom
  have hobuf := h.setObuf hemit
    ⟨Memory.wf_putBytes _ 0 h.obuf.1, Memory.within_putBytes _ 0 h.obuf.2 (by simpa using hemit)⟩
  exact hobuf.setCursor
    (fun _ => ⟨t, _, ht.of_treePart rfl, hsub, t.walk_isNode cur _ ht.isNode hn⟩)
    fun hv' => by simp [hv] at hv'

/-- What a command that succeeds leaves before its completion. -/
theorem Inv.effect {u : State} {i : Instr} (hu : Effect s i u) : Inv u := by
  cases hu with
  | nop => exact h
  | treeLoad w hw => exact h.installTree hw
  | cwClear => exact h.setCwt (Memory.ok_zeroed _)
  | cwDerive m hv hm => exact h.setCwt (h.deriveFrom_ok hv hm)
  | encBlock bits hlen _ => exact h.clearBbuf.appendBits (by simpa using hlen)
  | decBlock c bytes hv hrun => exact h.decode hv hrun
  | decReset => exact h.resetCursor
  | pkClear => exact h.clearBbuf
  | pkAppend n _ hfit => exact h.appendBits (by simpa [State.pkBits] using hfit)
  | pkGet k _ => exact h.setFree ..
  | pkTruncate n hn =>
    have hlen := h.bbufLen
    have hcap := bbufCap_eq s.cfg
    exact h.setBbuf (by omega)
      ⟨Memory.wf_setBits _ _ h.bbuf.1, Memory.within_setBits _ _ h.bbuf.2 (by rw [List.length_replicate]; omega)⟩

/-- What a command that fails leaves before its error is recorded. -/
theorem Inv.failure {u : State} {i : Instr} {e : Err} (hu : Failure s i u e) : Inv u := by
  cases hu with
  | treeLoad => exact h.dropTree
  | encBlock bits e hlen _ _ => exact h.clearBbuf.appendBits (by simpa using hlen)
  | _ => exact h

theorem Inv.exec {t : State} {i : Instr} (hrun : exec i s = .next t) : Inv t := by
  obtain ⟨u, hu, rfl⟩ | ⟨u, e, hu, rfl⟩ := exec_cases hrun
  · exact (h.effect hu).complete
  · exact (h.failure hu).raise hu.code_ne_zero

theorem Inv.engineStep {t : State} (hrun : engineStep s = .next t) : Inv t := by
  obtain ⟨i, -, hcmd⟩ | ⟨e, -, hcmd⟩ := engineStep_cases s <;> rw [hcmd] at hrun
  · exact h.exec hrun
  · cases hrun
    exact h.raise (by simp [Err.illegal_code])

/-! ### The host's actions keep the invariant -/

theorem Inv.popAction (rest : List HostAction) : Inv (s.popAction rest) := h.setFree ..

theorem Inv.reply (r : Option Word) : Inv (s.reply r) := by
  obtain ⟨v, -, hr⟩ | ⟨-, v, hr⟩ := s.reply_cases r <;> rw [hr] <;> exact h.setFree ..

/-- A write to a register, or to a reserved offset. -/
theorem Inv.writeLoc_plain (v : Word) {l : Loc} (hl : l.plain = true) : Inv (s.writeLoc v l) := by
  cases l with
  | ctrl | pkData => exact h.setFree ..
  | cmd =>
    simp only [State.writeLoc]
    split
    · exact h.setFree ..
    · exact h.issue v
  | status => exact h.ackStatus v
  | bbufLen =>
    simp only [State.writeLoc]
    split
    · next hv => exact h.setBbuf hv h.bbuf
    · exact h
  | inLen =>
    simp only [State.writeLoc]
    split
    · next hv => exact h.setIbuf hv h.ibuf
    · exact h
  | id | cfg0 | cfg1 | errInfo | result | outLen | decCursor | treeInfo | reserved => exact h
  | cwLen | cwBits | node | bbuf | ibuf | obuf => cases hl

/-- A write to the codeword table's window. -/
theorem Inv.writeLoc_cwt (v : Word) {e k : Nat} (he : e < 256) (hk : k < 8) : Inv (s.writeLoc v (cwtAt e k)) := by
  unfold cwtAt
  split_ifs
  · exact h.setCwt ⟨Memory.wf_setByte _ _ h.cwt.1, Memory.within_setByte _ _ h.cwt.2 (by omega)⟩
  · exact h.setCwt ⟨Memory.wf_setWord _ _ h.cwt.1, Memory.within_setWord _ _ h.cwt.2 (by omega)⟩
  · exact h

/-- A write to any aligned offset stays inside the RAM its window shows (R52). -/
theorem Inv.writeLoc (v : Word) {off : Nat} (h8 : off % 8 = 0) : Inv (s.writeLoc v (locate s.cfg off)) := by
  obtain ⟨-, hl⟩ | ⟨e, k, he, -, hk, hl⟩ | ⟨k, -, -, hl⟩ | ⟨w, hw, -, hl⟩ | ⟨w, hw, -, hl⟩ | ⟨w, -, -, hl⟩ | ⟨-, hl⟩ :=
    locate_cases s.cfg off h.cfg h8 <;> rw [hl]
  · exact h.writeLoc_plain v (registerAt_plain _)
  · exact h.writeLoc_cwt v he hk
  · exact h
  · exact h.setBbuf h.bbufLen
      ⟨Memory.wf_setWord _ _ h.bbuf.1, Memory.within_setWord _ _ h.bbuf.2 (by omega)⟩
  · exact h.setIbuf h.inLen
      ⟨Memory.wf_setWord _ _ h.ibuf.1, Memory.within_setWord _ _ h.ibuf.2 hw⟩
  · exact h
  · exact h

theorem Inv.hostAct {t : State} {a : HostAction} (hrun : hostAct a s = .next t) : Inv t := by
  obtain ⟨-, -, r, -, rfl⟩ | ⟨off, v, -, -, h8, -, rfl⟩ | ⟨-, rfl⟩ | ⟨-, rfl⟩ := hostAct_cases hrun
  · exact h.reply r
  · exact h.writeLoc v h8
  · exact h
  · exact inv_afterReset h.cfg _ _ _

end

end Sys2Proof.Machine
end

section
/-! The statements of 10_state.md R48, R49: the invariant after reset and over every step. -/

namespace Sys2Proof.Machine

/-- Settles O52: of what a step can do (`step_cases`), the engine's step and an action of the host keep the invariant, and an idle
turn keeps the state. -/
theorem everyStepKeepsInvariant : Obligations.EveryStepKeepsInvariant := by
  intro s t h hrun
  obtain ⟨-, hstep⟩ | ⟨-, -, hstep⟩ | ⟨a, rest, -, -, hstep⟩ := step_cases s <;> rw [hstep] at hrun
  · exact h.engineStep hrun
  · cases hrun
    exact h
  · exact (h.popAction rest).hostAct hrun

/-- Settles O51: the parameters of the test vectors are ones R9 allows. -/
theorem invariantHoldsAfterReset : Obligations.InvariantHoldsAfterReset :=
  ⟨inv_afterReset (by decide) _ _ _, fun _ draw queue replies hc => inv_afterReset hc draw queue replies⟩

end Sys2Proof.Machine
end

section
/-! The statements of 10_state.md on the writers of the state (R29, R32), the registers (R23 to R44) and the reset input (R49,
R190). -/

namespace Sys2Proof.Machine

/-- Settles O14: case by case over what a command can do (`exec_cases`), with the frame of each named update of the state. -/
theorem onlyNamedCommandsWrite : Obligations.OnlyNamedCommandsWrite := by
  intro i s t h
  obtain ⟨u, hu, rfl⟩ | ⟨u, e, hu, rfl⟩ := exec_cases h
  · cases hu <;> simp
  · cases hu <;> simp

/-- Of the engine's steps only TREE_LOAD's changes TREE_VALID (R32). -/
theorem engineStep_treeValid {s t : State} (h : engineStep s = .next t) (hne : t.treeValid ≠ s.treeValid) :
    decode s.lastCmd = .ok .treeLoad := by
  obtain ⟨i, hdecode, hrun⟩ | ⟨e, -, hrun⟩ := engineStep_cases s <;> rw [hrun] at h
  · obtain ⟨-, -, -, -, -, -, -, -, -, -, -, -, htree, -⟩ := onlyNamedCommandsWrite i s t h
    by_cases hi : i = .treeLoad
    · rw [hdecode, hi]
    · exact absurd (htree hi).1 hne
  · cases h
    exact absurd rfl hne

/-- Settles O15: over what a step can do (`step_cases`) and what an action of the host can do (`hostAct_cases`). -/
theorem treeValidAndBusyWriters : Obligations.TreeValidAndBusyWriters := by
  intro s t hrun
  obtain ⟨hturn, hstep⟩ | ⟨-, -, hstep⟩ | ⟨a, rest, -, hq, hstep⟩ := step_cases s <;> rw [hstep] at hrun
  · refine ⟨fun hne => .inl ⟨hturn, engineStep_treeValid hrun hne⟩, fun _ hb => ?_, fun _ _ => .inl hturn⟩
    simp [engineStep_busy hrun] at hb
  · cases hrun
    exact ⟨by simp, by simp +contextual, by simp +contextual⟩
  · rw [hq]
    obtain ⟨addr, width, r, rfl, rfl⟩ | ⟨off, v, rfl, -, h8, -, rfl⟩ | ⟨rfl, rfl⟩ | ⟨rfl, rfl⟩ :=
      hostAct_cases hrun
    · exact ⟨by simp, by simp +contextual, by simp +contextual⟩
    · refine ⟨by simp, fun h h' => ?_, fun h h' => ?_⟩
      · obtain ⟨rfl, hcmd⟩ := State.writeLoc_raises_busy h8 (by simpa using h) h'
        exact ⟨v, rfl, hcmd⟩
      · rw [State.writeLoc_busy_of_busy v _ (by simpa using h)] at h'
        cases h'
    · exact ⟨by simp, by simp +contextual, by simp +contextual⟩
    · exact ⟨fun _ => .inr rfl, fun _ h' => Bool.noConfusion h', fun _ _ => .inr rfl⟩

/-- Settles O37: STATUS is read at any time, and holds each flag and code in its field. -/
theorem statusFieldsReadBack : Obligations.StatusFieldsReadBack := by
  intro s hm
  obtain ⟨h6, hcode, hsub, h24⟩ := s.extractLsb'_statusWord
  refine ⟨s.statusWord, hostReads_of_busRead hm (by decide) ?_, ?_, ?_, ?_, ?_, ?_, ?_, h6, hcode, hsub, h24⟩
  · show s.busRead .status = _
    simp [State.busRead, Loc.readableWhileBusy, State.readLoc]
  all_goals
    rw [s.getLsbD_statusWord_flags _ (by decide)]
    simp [State.curAtRoot]

/-- Settles O38: in the invariant the counts and the cursor are below the sizes of their fields (R8, R42, R43). -/
theorem infoFieldsReadBack : Obligations.InfoFieldsReadBack := by
  intro s h hb
  obtain ⟨hnode, hleaf, hcursor⟩ := h.counts_bounds
  obtain ⟨hindex, hsym, -, hfree⟩ := extractLsb'_packFields s.errIndex s.errSym (j := 32) (by decide) (by decide)
  obtain ⟨hnc, hlc, hgap, hrest⟩ := extractLsb'_packFields (BitVec.ofNat 10 s.nodeCount) (BitVec.ofNat 9 s.leafCount)
    (j := 16) (by decide) (by decide)
  refine ⟨⟨_, hostReads_idle hb (by decide) rfl (congrArg some s.errInfoWord_eq), hindex, hsym, hfree⟩,
    ⟨_, hostReads_idle hb (by decide) rfl (congrArg some s.treeInfoWord_eq), ?_, ?_, hgap, hrest⟩,
    ⟨_, hostReads_idle hb (by decide) rfl rfl, ?_, hcursor⟩⟩
  · exact (congrArg BitVec.toNat hnc).trans (Nat.mod_eq_of_lt (by omega))
  · exact (congrArg BitVec.toNat hlc).trans (Nat.mod_eq_of_lt (by omega))
  · simp only [State.cursorWord, BitVec.toNat_setWidth, BitVec.toNat_ofNat]
    omega

/-- Settles O36: each register lies at its offset (`locate`), and the parameters R9 allows fit the fields of CFG0 and CFG1. -/
theorem registersReadBack : Obligations.RegistersReadBack := by
  intro s hb hc
  obtain ⟨⟨-, hbbuf⟩, ⟨-, -, hibuf⟩, ⟨-, -, hobuf⟩, -⟩ := hc
  obtain ⟨hwords, hsize, -, -⟩ := extractLsb'_packFields (BitVec.ofNat 32 s.cfg.bbufWords)
    (BitVec.ofNat 32 s.cfg.ibufSize) (j := 32) (by decide) (by decide)
  refine ⟨hostReads_idle hb (by decide) rfl rfl,
    ⟨_, hostReads_idle hb (by decide) rfl (congrArg some (cfg0Word_eq s.cfg)), ?_, ?_⟩,
    ⟨_, hostReads_idle hb (by decide) rfl rfl, ?_⟩,
    hostReads_idle hb (by decide) rfl (congrArg some (flagAt_zero _)), hostReads_idle hb (by decide) rfl rfl,
    hostReads_idle hb (by decide) rfl rfl, hostReads_idle hb (by decide) rfl rfl,
    hostReads_idle hb (by decide) rfl rfl, hostReads_idle hb (by decide) rfl rfl,
    hostReads_idle hb (by decide) rfl rfl⟩
  · exact (congrArg BitVec.toNat hwords).trans (Nat.mod_eq_of_lt (by omega))
  · exact (congrArg BitVec.toNat hsize).trans (Nat.mod_eq_of_lt (by omega))
  · simp only [cfg1Word, BitVec.toNat_setWidth, BitVec.toNat_ofNat]
    omega

/-- Settles O39: CTRL and STATUS take a write a command pending or not. -/
theorem ctrlAndStatusWrites : Obligations.CtrlAndStatusWrites := by
  intro s v hm
  refine ⟨hostWrites_of_hostMoves hm (by decide) rfl fun _ => rfl, ?_⟩
  have hstatus : HostWrites s 0x28 v (s.waited.ackStatus v) := hostWrites_of_hostMoves hm (by decide) rfl fun _ => rfl
  rwa [State.ackStatus, and_not_eq_ite, and_not_eq_ite] at hstatus

/-- Settles O40: the two lengths are written behind their range checks, PK_DATA with none. -/
theorem lengthWritesAreLegalOnly : Obligations.LengthWritesAreLegalOnly := by
  intro s v hb
  have hbbuf : HostWrites s 0x40 v (s.writeLoc v .bbufLen) := hostWrites_idle hb (by decide) rfl
  have hin : HostWrites s 0x48 v (s.writeLoc v .inLen) := hostWrites_idle hb (by decide) rfl
  refine ⟨fun h => ?_, fun h => ?_, fun h => ?_, fun h => ?_, hostWrites_idle hb (by decide) rfl⟩
  · simpa only [State.writeLoc, if_pos h] using hbbuf
  · simpa only [State.writeLoc, if_neg (Nat.not_le.2 h)] using hbbuf
  · simpa only [State.writeLoc, if_pos h] using hin
  · simpa only [State.writeLoc, if_neg (Nat.not_le.2 h)] using hin

/-- Settles O50: the reset input is one of the host's actions, performed at its turn whatever is pending. -/
theorem resetInputClearsRegisters : Obligations.ResetInputClearsRegisters := by
  intro s hm
  exact ⟨_, step_asks s .reset hm (by simp), rfl, State.statusWord_afterReset _ _ _ _, rfl, rfl, rfl, rfl⟩

end Sys2Proof.Machine
end

section
/-! SUPPORT. The converse of what a command can do (`exec_cases`), and that a command's effect or failure reads no bit of the bit
buffer at or beyond BBUF_LEN. -/

namespace Sys2Proof.Machine

/-- A command that succeeds leaves its effect and completes (R103). -/
theorem Effect.exec_eq {s u : State} {i : Instr} (h : Effect s i u) : exec i s = .next u.complete := by
  cases h with
  | nop | cwClear | decReset | pkClear => rfl
  | treeLoad w hw => simp [exec, execTreeLoad, hw]
  | cwDerive m hv hm => simp [exec, execCwDerive, hv, hm]
  | encBlock bits hlen hrun => simp [exec, execEncBlock, hrun]
  | decBlock c bytes hv hrun =>
    have hnode : State.node { s with outLen := 0 } = s.node := rfl
    simp only [exec, execDecBlock, if_pos hv, State.decodeBits_eq, hnode, hrun, Option.map_some, Nat.zero_add]
  | pkAppend n hn hfit =>
    simp only [exec, execPkAppend]
    rw [if_neg (by omega), if_neg (by omega)]
  | pkGet k hk =>
    simp only [exec, execPkGet]
    rw [if_neg (by omega)]
  | pkTruncate n hn =>
    simp only [exec, execPkTruncate]
    rw [if_neg (by omega)]

/-- A command that fails leaves its part and records its error (R103, R171). -/
theorem Failure.exec_eq {s u : State} {i : Instr} {e : Err} (h : Failure s i u e) : exec i s = .next (u.raise e) := by
  cases h with
  | treeLoad sub index hw => simp [exec, execTreeLoad, hw]
  | cwDerive hv => simp [exec, execCwDerive, hv]
  | encBlock bits e hlen hrun he => simp [exec, execEncBlock, hrun]
  | decBlock hv => simp [exec, execDecBlock, hv]
  | pkAppendIllFormed n hn =>
    simp only [exec, execPkAppend]
    rw [if_pos hn, execIllegal]
  | pkAppend n hn hfull =>
    simp only [exec, execPkAppend]
    rw [if_neg (by omega), if_pos hfull]
  | pkGet k hk =>
    simp only [exec, execPkGet]
    rw [if_pos hk]
  | pkTruncate n hn =>
    simp only [exec, execPkTruncate]
    rw [if_pos hn]

/-- Two RAMs that agree below the start of a range of bits written agree below its end. -/
theorem Memory.bit_setBits_congr {m m' : Memory} {i : Nat} (h : ∀ k < i, m.bit k = m'.bit k) (bs : List Bool) :
    ∀ k < i + bs.length, (m.setBits i bs).bit k = (m'.setBits i bs).bit k := by
  intro k hk
  rw [Memory.bit_setBits, Memory.bit_setBits]
  by_cases hi : i ≤ k
  · simp [hi, show k - i < bs.length by omega]
  · rw [if_neg hi, if_neg hi, h k (by omega)]

section
variable {s u : State} {m : Memory} (hm : ∀ k < s.bbufLen, m.bit k = s.bbuf.bit k)
include hm

theorem State.blockBits_congr : State.blockBits { s with bbuf := m } = s.blockBits :=
  Memory.bits_congr fun k hk => by simpa using hm k hk

/-- A success depends on the bit buffer below BBUF_LEN only (R56). -/
theorem Effect.congr_bbuf {i : Instr} (h : Effect s i u) :
    ∃ m', Effect { s with bbuf := m } i { u with bbuf := m' } ∧ ∀ k < u.bbufLen, m'.bit k = u.bbuf.bit k := by
  have hblock := State.blockBits_congr hm
  cases h with
  | nop => exact ⟨m, .nop, hm⟩
  | treeLoad w hw => exact ⟨m, .treeLoad w (hblock ▸ hw), hm⟩
  | cwClear => exact ⟨m, .cwClear, hm⟩
  | cwDerive t hv ht => exact ⟨m, .cwDerive t hv ht, hm⟩
  | encBlock bits hlen hrun =>
    exact ⟨_, .encBlock (s := { s with bbuf := m }) bits hlen hrun, fun _ _ => rfl⟩
  | decBlock c bytes hv hrun => exact ⟨m, .decBlock c bytes hv (hblock ▸ hrun), hm⟩
  | decReset => exact ⟨m, .decReset, hm⟩
  | pkClear => exact ⟨_, .pkClear, fun _ _ => rfl⟩
  | pkAppend n hn hfit => exact ⟨_, .pkAppend n hn hfit, Memory.bit_setBits_congr hm _⟩
  | pkGet k hk =>
    refine ⟨m, ?_, hm⟩
    rw [← hm k.toNat hk]
    exact .pkGet k hk
  | pkTruncate n hn =>
    exact ⟨_, .pkTruncate n hn, fun k hk =>
      Memory.bit_setBits_congr (fun j hj => hm j (lt_of_lt_of_le hj (Nat.sub_le _ _))) _ k (Nat.lt_add_right _ hk)⟩

/-- A failure depends on the bit buffer below BBUF_LEN only (R56). -/
theorem Failure.congr_bbuf {i : Instr} {e : Err} (h : Failure s i u e) :
    ∃ m', Failure { s with bbuf := m } i { u with bbuf := m' } e ∧ ∀ k < u.bbufLen, m'.bit k = u.bbuf.bit k := by
  cases h with
  | treeLoad sub index hw => exact ⟨m, .treeLoad sub index (State.blockBits_congr hm ▸ hw), hm⟩
  | cwDerive hv => exact ⟨m, .cwDerive hv, hm⟩
  | encBlock bits e hlen hrun he =>
    exact ⟨_, .encBlock (s := { s with bbuf := m }) bits e hlen hrun he, fun _ _ => rfl⟩
  | decBlock hv => exact ⟨m, .decBlock hv, hm⟩
  | pkAppendIllFormed n hn => exact ⟨m, .pkAppendIllFormed n hn, hm⟩
  | pkAppend n hn hfull => exact ⟨m, .pkAppend n hn hfull, hm⟩
  | pkGet k hk => exact ⟨m, .pkGet k hk, hm⟩
  | pkTruncate n hn => exact ⟨m, .pkTruncate n hn, hm⟩

end

end Sys2Proof.Machine
end

section
/-! SUPPORT. The bytes, bits and words of the RAMs as their windows show them (R53, R56, R57). -/

namespace Sys2Proof.Machine

/-! ### Words -/

theorem Memory.bit_of_byte (m : Memory) (a : Nat) {k : Nat} (hk : k < 8) : m.bit (8 * a + k) = (m.byte a).getLsbD k := by
  rw [Memory.bit, show (8 * a + k) / 8 = a by omega, show (8 * a + k) % 8 = k by omega]

/-- A word is its eight bytes, least significant first (R57). -/
theorem Memory.extractLsb'_word (m : Memory) (w : Nat) {b : Nat} (hb : b < 8) :
    (m.word w).extractLsb' (8 * b) 8 = m.byte (8 * w + b) := by
  apply BitVec.eq_of_getLsbD_eq
  intro k hk
  rw [BitVec.getLsbD_extractLsb', Memory.getLsbD_word, ← Memory.bit_of_byte m _ hk,
    show 64 * w + (8 * b + k) = 8 * (8 * w + b) + k by omega]
  simp [hk, show 8 * b + k < 64 by omega]

/-- A word of OBUF as the host reads it: the bytes below OUT_LEN as stored, and 0 for the others (R57). -/
theorem State.extractLsb'_readObuf (s : State) (w : Nat) {b : Nat} (hb : b < 8) :
    (s.readObuf w).extractLsb' (8 * b) 8 = if 8 * w + b < s.outLen then s.obuf.byte (8 * w + b) else 0 := by
  apply BitVec.eq_of_getLsbD_eq
  intro k hk
  rw [BitVec.getLsbD_extractLsb', State.readObuf, getLsbD_wordOfBits, show (8 * b + k) / 8 = b by omega,
    show 64 * w + (8 * b + k) = 8 * (8 * w + b) + k by omega, Memory.bit_of_byte _ _ hk]
  split <;> simp [hk, show 8 * b + k < 64 by omega]

theorem Memory.word_setWord (m : Memory) (w : Nat) (v : Word) : (m.setWord w v).word w = v := by
  apply BitVec.eq_of_getLsbD_eq
  intro j hj
  rw [Memory.getLsbD_word, Memory.bit_setWord, if_pos (by omega), show (64 * w + j) % 64 = j by omega]
  simp [hj]

/-! ### The codeword table -/

/-- A write of an entry's length byte sets that length and no other (R90). -/
theorem Memory.cwLen_setByte (m : Memory) (e r : Byte) (v : Byte) :
    (m.setByte (64 * e.toNat) v).cwLen r = if r = e then v.toNat else m.cwLen r := by
  have hiff : 64 * r.toNat = 64 * e.toNat ↔ r = e := by rw [← BitVec.toNat_inj]; omega
  simp only [Memory.cwLen, Memory.byte_setByte, hiff]
  split <;> rfl

/-- No code bit lies in a length byte (R90). -/
theorem Memory.cwBit_setByte (m : Memory) (e r : Byte) (v : Byte) {k : Nat} (hk : k < 256) :
    (m.setByte (64 * e.toNat) v).cwBit r k = m.cwBit r k := by
  have hne : (cwBitBase r + k) / 8 ≠ 64 * e.toNat := by simp only [cwBitBase]; omega
  simp only [Memory.cwBit, Memory.bit, Memory.byte_setByte, if_neg hne]

/-- No length byte lies in a word of code bits (R90). -/
theorem Memory.cwLen_setWord (m : Memory) (e r : Byte) {b : Nat} (hb : b < 4) (v : Word) :
    (m.setWord (8 * e.toNat + 1 + b) v).cwLen r = m.cwLen r := by
  have hne : 64 * r.toNat / 8 ≠ 8 * e.toNat + 1 + b := by omega
  rw [Memory.cwLen, Memory.byte_setWord, if_neg hne, Memory.cwLen]

/-- Word `b` of an entry's code bits is its bits `64 * b` to `64 * b + 63` (R90). -/
theorem Memory.cwBit_setWord (m : Memory) (e r : Byte) {b k : Nat} (hb : b < 4) (hk : k < 256) (v : Word) :
    (m.setWord (8 * e.toNat + 1 + b) v).cwBit r k =
      if r = e ∧ k / 64 = b then v.getLsbD (k % 64) else m.cwBit r k := by
  have hiff : (cwBitBase r + k) / 64 = 8 * e.toNat + 1 + b ↔ r = e ∧ k / 64 = b := by
    rw [← BitVec.toNat_inj]
    simp only [cwBitBase]
    omega
  have hmod : (cwBitBase r + k) % 64 = k % 64 := by simp only [cwBitBase]; omega
  simp only [Memory.cwBit, Memory.bit_setWord, hiff, hmod]

/-! ### Node words -/

/-- The word of an internal node whose children's indices fit their fields of 9 bits (R91). -/
theorem Node.word_internal {l r : Nat} (hl : l < 512) (hr : r < 512) :
    (Node.internal l r).word = BitVec.ofNat 64 (l * 2 ^ 16 + r * 2 ^ 32) := by
  apply BitVec.eq_of_toNat_eq
  have hor : l <<< 16 ||| r <<< 32 = l * 2 ^ 16 + r * 2 ^ 32 := by
    rw [Nat.lor_comm, ← Nat.shiftLeft_add_eq_or_of_lt (by rw [Nat.shiftLeft_eq]; omega), Nat.shiftLeft_eq,
      Nat.shiftLeft_eq, Nat.add_comm]
  have hl' : l <<< 16 < 2 ^ 64 := by rw [Nat.shiftLeft_eq]; omega
  have hr' : r <<< 32 < 2 ^ 64 := by rw [Nat.shiftLeft_eq]; omega
  have hfield : ∀ n < 512, n % 2 ^ 9 % 2 ^ 64 = n := by omega
  simp only [Node.word, BitVec.toNat_or, BitVec.toNat_shiftLeft, BitVec.toNat_setWidth, BitVec.toNat_ofNat, hfield l hl,
    hfield r hr, Nat.mod_eq_of_lt hl', Nat.mod_eq_of_lt hr', hor]
  exact (Nat.mod_eq_of_lt (by omega)).symm

/-- With a tree loaded the host reads the word of a subtree's root at its preorder index (R54). -/
theorem Holds.readNode_eq {t u : HTree} {s : State} {k : Nat} (h : Holds t s) (hk : t.sub k = some u) :
    s.readNode k = some (u.rootNode k).word := by
  have hnode := h.node_eq hk
  simp only [State.node] at hnode
  split at hnode
  · next hlt => simp [State.readNode, h.valid, hlt, hnode]
  · cases hnode

end Sys2Proof.Machine
end

section
/-! SUPPORT. The host's accesses that return any value, that stop, and that the location ignores (R51, R54, R55). -/

namespace Sys2Proof.Machine

/-- At the host's turn a read of an aligned offset whose location answers no word of its own returns any value. -/
theorem hostReadsAnyValue_of_busRead {s : State} {off : Nat} (hm : s.hostMoves) (hoff : off < 0x400000 ∧ off % 8 = 0)
    (hv : s.busRead (locate s.cfg off) = none) : HostReadsAnyValue s off := by
  refine ⟨Config.freeWord s.draws, ?_⟩
  rw [step_asks s _ hm (by simp), hostAct, ← s.waited_cfg, hostRead_eq s.waited off hoff.1 hoff.2,
    State.busRead_waited, s.waited_cfg, hv]
  rfl

/-! ### Stops -/

theorem offsetOf_outside {c : Config} {addr : Nat} (h : addr < c.base ∨ c.base + 0x400000 ≤ addr) :
    offsetOf c addr = none := by
  rw [offsetOf, if_neg]
  simp only [Config.windowSize]
  omega

theorem accessOk_misshapen {off width : Nat} (h : width ≠ 8 ∨ off % 8 ≠ 0) : accessOk off width = false := by
  rw [Bool.eq_false_iff, ne_eq, accessOk_iff]
  omega

/-! ### Ignored writes -/

/-- The locations whose writes are ignored: read-only registers and windows, and reserved offsets (R55). -/
def Loc.ignoresWrites : Loc → Bool
  | .id | .cfg0 | .cfg1 | .errInfo | .result | .outLen | .decCursor | .treeInfo | .node _ | .obuf _ | .reserved => true
  | _ => false

theorem State.writeLoc_of_ignoresWrites (s : State) (v : Word) {l : Loc} (h : l.ignoresWrites = true) :
    s.writeLoc v l = s := by
  cases l with
  | ctrl | cmd | status | bbufLen | inLen | pkData | cwLen | cwBits | bbuf | ibuf => cases h
  | _ => rfl

theorem ReservedOffset.lt_window {c : Config} {off : Nat} (h : ReservedOffset c off) : off < 0x400000 := by
  simp only [ReservedOffset] at h
  omega

/-- The address map names nothing at a reserved offset (R52, R90). -/
theorem ReservedOffset.locate_eq {c : Config} {off : Nat} (hc : c.Ok) (h8 : off % 8 = 0) (h : ReservedOffset c off) :
    locate c off = .reserved := by
  obtain ⟨⟨-, hbbuf⟩, ⟨-, -, hibuf⟩, ⟨-, -, hobuf⟩, -⟩ := id hc
  simp only [ReservedOffset] at h
  obtain ⟨hreg, hl⟩ | ⟨e, k, he, rfl, hk, hl⟩ | ⟨k, hk, rfl, -⟩ | ⟨w, hw, rfl, -⟩ | ⟨w, hw, rfl, -⟩ | ⟨w, hw, rfl, -⟩ |
    ⟨-, hl⟩ := locate_cases c off hc h8
  · rw [hl, registerAt_of_ge _ (by omega)]
  · rw [hl, cwtAt, if_neg (by omega), if_neg (by omega)]
  · omega
  · omega
  · omega
  · omega
  · exact hl

/-- At a read-only offset lies a location that ignores writes, inside the window (R52, R55). -/
theorem ReadOnlyOffset.ignoresWrites {c : Config} {off : Nat} (hc : c.Ok) (h8 : off % 8 = 0) (h : ReadOnlyOffset c off) :
    off < 0x400000 ∧ (locate c off).ignoresWrites = true := by
  obtain hreg | ⟨hlo, hhi⟩ | ⟨hlo, hhi⟩ := h
  · have hmap : ∀ x ∈ [0x00, 0x08, 0x10, 0x30, 0x38, 0x50, 0x58, 0x68],
        x < 0x4000 ∧ (registerAt (x / 8)).ignoresWrites = true := by decide
    obtain ⟨hlt, hignores⟩ := hmap off hreg
    exact ⟨by omega, by rwa [locate_register c off hlt]⟩
  · obtain ⟨k, rfl⟩ : ∃ k, off = 0x8000 + 8 * k := ⟨(off - 0x8000) / 8, by omega⟩
    exact ⟨by omega, by rw [locate_node c k (by omega)]; rfl⟩
  · obtain ⟨w, rfl⟩ : ∃ w, off = 0x300000 + 8 * w := ⟨(off - 0x300000) / 8, by omega⟩
    have hw : 8 * w < c.obufSize := by omega
    obtain ⟨-, -, ⟨-, -, hobuf⟩, -⟩ := id hc
    exact ⟨by omega, by rw [locate_obuf c w hw hc]; rfl⟩

end Sys2Proof.Machine
end

section
/-! The statements of 20_memory.md: the windows (R53 to R57), the accesses (R50, R51, R55, R60), and what lies beyond BBUF_LEN
(R56). -/

namespace Sys2Proof.Machine

/-- Settles O21: what a command leaves, its success (`Effect.congr_bbuf`) or its failure (`Failure.congr_bbuf`), is the same with the
other buffer. -/
theorem paddingBitsChangeNoResult : Obligations.PaddingBitsChangeNoResult := by
  intro i s t m hm h
  obtain ⟨u, hu, rfl⟩ | ⟨u, e, hu, rfl⟩ := exec_cases h
  · obtain ⟨m', hu', hm'⟩ := hu.congr_bbuf hm
    exact ⟨m', hu'.exec_eq, hm'⟩
  · obtain ⟨m', hu', hm'⟩ := hu.congr_bbuf hm
    exact ⟨m', hu'.exec_eq, hm'⟩

/-- Settles O41: word w of the window is the 64 bits from 64 * w, masked for reads alone. -/
theorem bbufWindowIsMasked : Obligations.BbufWindowIsMasked := by
  intro s w v hb hc hw
  have hl := locate_bbuf s.cfg w hw hc
  have hoff : 0x100000 + 8 * w < 0x400000 ∧ (0x100000 + 8 * w) % 8 = 0 := by
    obtain ⟨⟨-, hmax⟩, -⟩ := hc
    omega
  refine ⟨⟨_, hostReads_idle hb hoff hl rfl, fun j hj => ?_⟩, _, hostWrites_idle hb hoff hl, rfl, fun j hj => ?_,
    fun k hk => ?_⟩
  · rw [State.readBbuf, getLsbD_wordOfBits, decide_eq_true hj, Bool.true_and]
    by_cases hlen : 64 * w + j < s.bbufLen <;> simp [hlen]
  · rw [State.writeLoc, Memory.bit_setWord, if_pos (by omega), show (64 * w + j) % 64 = j by omega]
  · rw [State.writeLoc, Memory.bit_setWord, if_neg hk]

/-- Settles O42: a word of a byte buffer is its eight bytes (`Memory.extractLsb'_word`), for OBUF behind OUT_LEN's mask. -/
theorem byteBufferWindows : Obligations.ByteBufferWindows := by
  intro s w v hb hc
  obtain ⟨-, ⟨-, -, hibuf⟩, ⟨-, -, hobuf⟩, -⟩ := id hc
  refine ⟨fun hw => ?_, fun hw => ?_⟩
  · have hl := locate_ibuf s.cfg w hw hc
    refine ⟨⟨_, hostReads_idle hb (by omega) hl rfl, fun b hb8 => Memory.extractLsb'_word _ _ hb8⟩, _,
      hostWrites_idle hb (by omega) hl, rfl, fun b hb8 => ?_, fun a ha => ?_⟩
    · rw [State.writeLoc, Memory.byte_setWord, if_pos (by omega), show (8 * w + b) % 8 = b by omega]
    · rw [State.writeLoc, Memory.byte_setWord, if_neg ha]
  · exact ⟨_, hostReads_idle hb (by omega) (locate_obuf s.cfg w hw hc) rfl,
      fun b hb8 => State.extractLsb'_readObuf s w hb8⟩

/-- Settles O43: the length byte and the four words of code bits of an entry lie apart from each other and from every other entry's. -/
theorem cwtWindowEntries : Obligations.CwtWindowEntries := by
  intro s e b v hb hb4
  have he : e.toNat < 256 := e.isLt
  constructor
  · have hl : locate s.cfg (0x4000 + 0x40 * e.toNat) = .cwLen e.toNat := locate_cwt s.cfg e.toNat 0 he (by decide)
    refine ⟨_, hostWrites_idle hb (by omega) hl, rfl, ?_, fun r hr => ?_, fun r k hk => Memory.cwBit_setByte _ _ _ _ hk,
      hostReads_idle hb (by omega) hl ?_⟩
    · rw [State.writeLoc, Memory.cwLen_setByte, if_pos rfl]
    · rw [State.writeLoc, Memory.cwLen_setByte, if_neg hr]
    · simp [State.writeLoc, State.readLoc, Memory.byte_setByte]
  · have hl : locate s.cfg (0x4008 + 0x40 * e.toNat + 8 * b) = .cwBits e.toNat b := by
      rw [show 0x4008 + 0x40 * e.toNat + 8 * b = 0x4000 + 0x40 * e.toNat + 8 * (b + 1) by omega,
        locate_cwt s.cfg e.toNat (b + 1) he (by omega), cwtAt, if_neg (by omega), if_pos (by omega), Nat.add_sub_cancel]
    refine ⟨_, hostWrites_idle hb (by omega) hl, rfl, fun r => Memory.cwLen_setWord _ _ _ hb4 _, fun j hj => ?_,
      fun r k hk hne => ?_, hostReads_idle hb (by omega) hl ?_⟩
    · rw [State.writeLoc, Memory.cwBit_setWord _ _ _ hb4 (by omega), if_pos ⟨rfl, by omega⟩,
        show (64 * b + j) % 64 = j by omega]
    · rw [State.writeLoc, Memory.cwBit_setWord _ _ _ hb4 hk, if_neg (by tauto)]
    · simp only [State.writeLoc, State.readLoc, Memory.word_setWord]

/-- Settles O44: a subtree's root is the node at its preorder index (`Holds.readNode_eq`), and a loaded tree has at most 511 nodes,
so its indices fit their fields. -/
theorem nodeWindowReads : Obligations.NodeWindowReads := by
  intro s k hb hk
  have hl := locate_node s.cfg k hk
  have reads : ∀ {v : Word}, s.readNode k = some v → HostReads s (0x8000 + 8 * k) v :=
    fun hv => hostReads_idle hb (by omega) hl hv
  refine ⟨fun t ht sym hsub => reads (ht.readNode_eq hsub), fun t ht l r hsub => reads ?_, fun hv hn => reads ?_,
    fun hv => ?_⟩
  · have hend := HTree.sub_size hsub
    have hpos := r.size_pos
    have hsize := t.size_eq
    have hmax := ht.leaves
    simp only [HTree.size] at hend
    rw [ht.readNode_eq hsub, HTree.rootNode, Node.word_internal (by omega) (by omega)]
  · rw [State.readNode, if_pos hv, if_neg (by omega)]
  · exact hostReadsAnyValue_of_busRead (State.hostMoves_idle hb) (by omega)
      (by simp [State.busRead, hb, hl, State.readLoc, State.readNode, hv])

/-- Settles O45: the address map puts a location that ignores writes at every reserved and every read-only offset. -/
theorem reservedAndReadOnlyOffsets : Obligations.ReservedAndReadOnlyOffsets := by
  intro s off v hb hc h8
  have ignored : off < 0x400000 → (locate s.cfg off).ignoresWrites = true → HostWrites s off v s := by
    intro hoff hl
    simpa only [State.writeLoc_of_ignoresWrites s v hl] using hostWrites_idle (v := v) hb ⟨hoff, h8⟩ rfl
  refine ⟨fun h => ?_, fun h => ?_⟩
  · have hl := h.locate_eq hc h8
    exact ⟨hostReads_idle hb ⟨h.lt_window, h8⟩ hl rfl, ignored h.lt_window (by rw [hl]; rfl)⟩
  · obtain ⟨hoff, hl⟩ := h.ignoresWrites hc h8
    exact ignored hoff hl

/-- Settles O46: a read that gives a next state replies (`hostAct_cases`), and a reply is one word more for the host, with a draw
where the word is a free value (`State.reply_cases`). -/
theorem readsHaveNoSideEffect : Obligations.ReadsHaveNoSideEffect := by
  intro s t addr width hm h
  rw [step_asks s _ hm (by simp)] at h
  obtain ⟨-, -, r, -, rfl⟩ | ⟨_, _, ha, -⟩ | ⟨ha, -⟩ | ⟨ha, -⟩ := hostAct_cases h
  · obtain ⟨v, -, hr⟩ | ⟨-, v, hr⟩ := s.waited.reply_cases r <;> rw [hr] <;> exact ⟨rfl, v, rfl⟩
  all_goals cases ha

/-- Settles O48: the window is checked before the shape. -/
theorem misshapenAccessesStop : Obligations.MisshapenAccessesStop := by
  intro s addr width v hm
  have hread := step_asks s (.read addr width) hm (by simp)
  have hwrite := step_asks s (.write addr width v) hm (by simp)
  refine ⟨fun off haddr hoff hshape => ?_, fun hout => ?_⟩
  · subst haddr
    rw [hread, hwrite]
    simp [hostAct, hostRead, hostWrite, offsetOf_base _ _ hoff, accessOk_misshapen hshape]
  · rw [hread, hwrite]
    simp [hostAct, hostRead, hostWrite, offsetOf_outside hout]

end Sys2Proof.Machine
end

section
/-! SUPPORT. The laws of the command word: its fields as a packed register (R81 to R85), the rows of the opcode map (R86), what
`decode` answers for a row's format and when it answers a command or an error (R87). -/

namespace Sys2Proof.Machine

/-! ### The fields of a word (R81 to R85) -/

/-- A word is the register of its two fields when its other bits are 0. -/
theorem eq_packFields_iff {m n j : Nat} (c : Word) (a : BitVec m) (b : BitVec n) (hm : m ≤ j) (hj : j + n ≤ 64) :
    c = packFields a b j ↔ c.extractLsb' 0 m = a ∧ c.extractLsb' j n = b ∧ c.extractLsb' m (j - m) = 0 ∧
      c.extractLsb' (j + n) (64 - (j + n)) = 0 := by
  constructor
  · rintro rfl
    exact extractLsb'_packFields a b hm hj
  · rintro ⟨rfl, rfl, hgap, hrest⟩
    apply BitVec.eq_of_getLsbD_eq
    intro k hk
    have hgapBit := congrArg (·.getLsbD (k - m)) hgap
    have hrestBit := congrArg (·.getLsbD (k - (j + n))) hrest
    simp only [BitVec.getLsbD_extractLsb', BitVec.ofNat_eq_ofNat, BitVec.getLsbD_zero] at hgapBit hrestBit
    rw [getLsbD_packFields _ _ hk, BitVec.getLsbD_extractLsb', BitVec.getLsbD_extractLsb', Nat.zero_add]
    by_cases hkm : k < m
    · simp [hkm, show ¬ j ≤ k by omega]
    by_cases hkj : k < j
    · simpa [hkm, show ¬ j ≤ k by omega, show k - m < j - m by omega, show m + (k - m) = k by omega] using hgapBit
    by_cases hkn : k < j + n
    · simp [hkm, show j ≤ k by omega, show k - j < n by omega, show j + (k - j) = k by omega]
    · simpa [hkm, show ¬ k - j < n by omega, show k - (j + n) < 64 - (j + n) by omega,
        show j + n + (k - (j + n)) = k by omega] using hrestBit

/-- Format N: the opcode and nothing else (R82). -/
theorem eq_formatN_iff (c : Word) (op : Byte) : c = op.setWidth 64 ↔ opField c = op ∧ reservedN c = 0 := by
  have h := eq_packFields_iff c op 0#56 (j := 8) (by decide) (by decide)
  simpa [packFields, opField, reservedN] using h

/-- Format B: the opcode and NBITS (R83). -/
theorem eq_formatB_iff (c : Word) (op : Byte) (nbits : BitVec 7) :
    c = packFields op nbits 8 ↔ opField c = op ∧ nbitsField c = nbits ∧ reservedB c = 0 := by
  have h := eq_packFields_iff c op nbits (j := 8) (by decide) (by decide)
  simpa [opField, nbitsField, reservedB] using h

/-- Format I: the opcode and IMM32 (R84). -/
theorem eq_formatI_iff (c : Word) (op : Byte) (imm : Count32) :
    c = packFields op imm 32 ↔ opField c = op ∧ imm32Field c = imm ∧ reservedI c = 0 := by
  have h := eq_packFields_iff c op imm (j := 32) (by decide) (by decide)
  simpa [opField, imm32Field, reservedI] using h

theorem extractLsb'_and_kept {c mask : Word} {j n : Nat} (h : mask.extractLsb' j n = BitVec.allOnes n) :
    (c &&& mask).extractLsb' j n = c.extractLsb' j n := by
  rw [BitVec.extractLsb'_and, h, BitVec.and_allOnes]

theorem extractLsb'_and_dropped {c mask : Word} {j n : Nat} (h : mask.extractLsb' j n = 0) :
    (c &&& mask).extractLsb' j n = 0 := by
  rw [BitVec.extractLsb'_and, h]
  exact BitVec.and_zero

/-- The mask of format B keeps the opcode and the reserved bits and drops NBITS (R86). -/
theorem and_maskB_iff (c : Word) (op : Byte) :
    c &&& 0xFFFFFFFFFFFF80FF#64 = op.setWidth 64 ↔ opField c = op ∧ reservedB c = 0 := by
  have h := eq_formatB_iff (c &&& 0xFFFFFFFFFFFF80FF#64) op 0
  simp (disch := decide) only [opField, nbitsField, reservedB, extractLsb'_and_kept, extractLsb'_and_dropped] at h
  simpa [packFields, opField, reservedB] using h

/-- The mask of format I keeps the opcode and the reserved bits and drops IMM32 (R86). -/
theorem and_maskI_iff (c : Word) (op : Byte) :
    c &&& 0x00000000FFFFFFFF#64 = op.setWidth 64 ↔ opField c = op ∧ reservedI c = 0 := by
  have h := eq_formatI_iff (c &&& 0x00000000FFFFFFFF#64) op 0
  simp (disch := decide) only [opField, imm32Field, reservedI, extractLsb'_and_kept, extractLsb'_and_dropped] at h
  simpa [packFields, opField, reservedI] using h

/-- The reserved bits of format B are among those of format N. -/
theorem reservedB_eq_zero_of_reservedN {c : Word} (h : reservedN c = 0) : reservedB c = 0 := by
  have hc : c = packFields (opField c) 0#7 8 := by simpa [packFields] using (eq_formatN_iff c _).2 ⟨rfl, h⟩
  obtain ⟨-, -, hres⟩ := (eq_formatB_iff _ _ _).1 hc
  exact hres

/-- The reserved bits of format I are among those of format N. -/
theorem reservedI_eq_zero_of_reservedN {c : Word} (h : reservedN c = 0) : reservedI c = 0 := by
  have hc : c = packFields (opField c) 0#32 32 := by simpa [packFields] using (eq_formatN_iff c _).2 ⟨rfl, h⟩
  obtain ⟨-, -, hres⟩ := (eq_formatI_iff _ _ _).1 hc
  exact hres

/-! ### The opcode map (R86) -/

/-- The rows of format N: each opcode with its command. -/
def formatNRows : List (Byte × Instr) :=
  [(0x00#8, .nop), (0x10#8, .treeLoad), (0x11#8, .cwClear), (0x12#8, .cwDerive), (0x20#8, .encBlock),
    (0x30#8, .decBlock), (0x31#8, .decReset), (0x40#8, .pkClear)]

theorem opcodeMap_eq :
    opcodeMap = formatNRows.map (fun p => (p.1, Row.formatN p.2)) ++
      [(0x41#8, .formatB .pkAppend), (0x42#8, .formatI .pkGet), (0x43#8, .formatI .pkTruncate)] := rfl

theorem formatN_mem_iff {op : Byte} {i : Instr} : (op, Row.formatN i) ∈ opcodeMap ↔ (op, i) ∈ formatNRows := by
  simp [opcodeMap_eq]

theorem formatB_mem_iff {op : Byte} {mk : BitVec 7 → Instr} :
    (op, Row.formatB mk) ∈ opcodeMap ↔ op = 0x41 ∧ mk = .pkAppend := by
  simp [opcodeMap_eq]

theorem formatI_mem_iff {op : Byte} {mk : Count32 → Instr} :
    (op, Row.formatI mk) ∈ opcodeMap ↔ (op = 0x42 ∧ mk = .pkGet) ∨ (op = 0x43 ∧ mk = .pkTruncate) := by
  simp [opcodeMap_eq]

/-- No opcode has two rows, so the map finds an opcode's row wherever it stands. -/
theorem rowOf_eq_some_iff {op : Byte} {r : Row} : rowOf op = some r ↔ (op, r) ∈ opcodeMap := by
  constructor
  · intro h
    obtain ⟨⟨op', r'⟩, hfind, rfl⟩ := Option.map_eq_some_iff.1 h
    obtain rfl : op' = op := by simpa using List.find?_some hfind
    exact List.mem_of_find?_eq_some hfind
  · intro h
    simp only [opcodeMap, List.mem_cons, Prod.mk.injEq, List.not_mem_nil, or_false] at h
    rcases h with ⟨rfl, rfl⟩ | ⟨rfl, rfl⟩ | ⟨rfl, rfl⟩ | ⟨rfl, rfl⟩ | ⟨rfl, rfl⟩ | ⟨rfl, rfl⟩ | ⟨rfl, rfl⟩ |
      ⟨rfl, rfl⟩ | ⟨rfl, rfl⟩ | ⟨rfl, rfl⟩ | ⟨rfl, rfl⟩ <;> rfl

theorem rowOf_eq_none_iff {op : Byte} : rowOf op = none ↔ op ∉ opcodeMap.map Prod.fst := by
  simp only [rowOf, Option.map_eq_none_iff, List.find?_eq_none, beq_iff_eq, List.mem_map, not_exists, not_and]

theorem mem_opcodes_of_rowOf {op : Byte} {r : Row} (h : rowOf op = some r) : op ∈ opcodeMap.map Prod.fst :=
  List.mem_map_of_mem (rowOf_eq_some_iff.1 h)

/-! ### The encoder by format (R92) -/

theorem encode_formatN {op : Byte} {i : Instr} (h : (op, i) ∈ formatNRows) :
    i.wellFormed = true ∧ encode i = op.setWidth 64 := by
  have hrows : ∀ p ∈ formatNRows, p.2.wellFormed = true ∧ encode p.2 = p.1.setWidth 64 := by decide
  exact hrows _ h

theorem encode_pkAppend (nbits : BitVec 7) : encode (.pkAppend nbits) = packFields 0x41#8 nbits 8 := BitVec.or_comm ..

theorem encode_pkGet (index : Count32) : encode (.pkGet index) = packFields 0x42#8 index 32 := BitVec.or_comm ..

theorem encode_pkTruncate (count : Count32) : encode (.pkTruncate count) = packFields 0x43#8 count 32 := BitVec.or_comm ..

/-! ### The decoder by format (R87) -/

section
variable {c : Word} {mkB : BitVec 7 → Instr} {mkI : Count32 → Instr} {i : Instr}

theorem decode_unknown (h : rowOf (opField c) = none) : decode c = .error (.unknownOpcode (opField c)) := by
  simp only [decode, h]

theorem decode_formatN (h : (opField c, Row.formatN i) ∈ opcodeMap) :
    decode c = if reservedN c ≠ 0 then .error (.reservedBits (opField c)) else .ok i := by
  simp only [decode, rowOf_eq_some_iff.2 h]

theorem decode_formatB (h : (opField c, Row.formatB mkB) ∈ opcodeMap) :
    decode c = if reservedB c ≠ 0 then .error (.reservedBits (opField c))
      else if (nbitsField c).toNat > 64 then .error (.nbitsRange (nbitsField c) (opField c))
      else .ok (mkB (nbitsField c)) := by
  simp only [decode, rowOf_eq_some_iff.2 h]

theorem decode_formatI (h : (opField c, Row.formatI mkI) ∈ opcodeMap) :
    decode c = if reservedI c ≠ 0 then .error (.reservedBits (opField c)) else .ok (mkI (imm32Field c)) := by
  simp only [decode, rowOf_eq_some_iff.2 h]

/-- A PK_APPEND with its reserved bits 0 and NBITS in range is accepted. -/
theorem decode_pkAppend (hop : opField c = 0x41) (hres : reservedB c = 0) (hn : (nbitsField c).toNat ≤ 64) :
    decode c = .ok (.pkAppend (nbitsField c)) := by
  rw [decode_formatB (formatB_mem_iff.2 ⟨hop, rfl⟩), if_neg (not_not.2 hres), if_neg (by omega)]

theorem decode_pkGet (hop : opField c = 0x42) (hres : reservedI c = 0) : decode c = .ok (.pkGet (imm32Field c)) := by
  rw [decode_formatI (formatI_mem_iff.2 (.inl ⟨hop, rfl⟩)), if_neg (not_not.2 hres)]

theorem decode_pkTruncate (hop : opField c = 0x43) (hres : reservedI c = 0) :
    decode c = .ok (.pkTruncate (imm32Field c)) := by
  rw [decode_formatI (formatI_mem_iff.2 (.inr ⟨hop, rfl⟩)), if_neg (not_not.2 hres)]

/-- Every way a word is accepted. -/
theorem decode_ok_cases (h : decode c = .ok i) :
    ((opField c, Row.formatN i) ∈ opcodeMap ∧ reservedN c = 0) ∨
    (∃ mk, (opField c, Row.formatB mk) ∈ opcodeMap ∧ reservedB c = 0 ∧ (nbitsField c).toNat ≤ 64 ∧
      i = mk (nbitsField c)) ∨
    ∃ mk, (opField c, Row.formatI mk) ∈ opcodeMap ∧ reservedI c = 0 ∧ i = mk (imm32Field c) := by
  cases hr : rowOf (opField c) with
  | none => simp [decode_unknown hr] at h
  | some r =>
    have hmem := rowOf_eq_some_iff.1 hr
    cases r with
    | formatN j =>
      rw [decode_formatN hmem] at h
      split_ifs at h with hres
      cases h
      exact .inl ⟨hmem, not_not.1 hres⟩
    | formatB mk =>
      rw [decode_formatB hmem] at h
      split_ifs at h with hres hn
      cases h
      exact .inr (.inl ⟨mk, hmem, not_not.1 hres, by omega, rfl⟩)
    | formatI mk =>
      rw [decode_formatI hmem] at h
      split_ifs at h with hres
      cases h
      exact .inr (.inr ⟨mk, hmem, not_not.1 hres, rfl⟩)

/-- Every way a word is illegal (R88). -/
theorem decode_error_cases {e : DecodeError} (h : decode c = .error e) :
    (e = .unknownOpcode (opField c) ∧ opField c ∉ opcodeMap.map Prod.fst) ∨
    (e = .reservedBits (opField c) ∧ opField c ∈ opcodeMap.map Prod.fst ∧ reservedN c ≠ 0) ∨
    (e = .nbitsRange (nbitsField c) (opField c) ∧ opField c = 0x41 ∧ 64 < (nbitsField c).toNat) := by
  cases hr : rowOf (opField c) with
  | none =>
    rw [decode_unknown hr] at h
    cases h
    exact .inl ⟨rfl, rowOf_eq_none_iff.1 hr⟩
  | some r =>
    have hmem := rowOf_eq_some_iff.1 hr
    have hop := mem_opcodes_of_rowOf hr
    cases r with
    | formatN j =>
      rw [decode_formatN hmem] at h
      split_ifs at h with hres
      cases h
      exact .inr (.inl ⟨rfl, hop, hres⟩)
    | formatB mk =>
      rw [decode_formatB hmem] at h
      split_ifs at h with hres hn
      · cases h
        exact .inr (.inl ⟨rfl, hop, mt reservedB_eq_zero_of_reservedN hres⟩)
      · cases h
        exact .inr (.inr ⟨rfl, (formatB_mem_iff.1 hmem).1, hn⟩)
    | formatI mk =>
      rw [decode_formatI hmem] at h
      split_ifs at h with hres
      cases h
      exact .inr (.inl ⟨rfl, hop, mt reservedI_eq_zero_of_reservedN hres⟩)

end

/-! ### The decoder and the encoder -/

/-- The fields of the encoded word are the row's opcode and the operand, and its reserved bits are 0. -/
theorem decode_encode {i : Instr} (h : i.wellFormed = true) : decode (encode i) = .ok i := by
  cases i with
  | nop | treeLoad | cwClear | cwDerive | encBlock | decBlock | decReset | pkClear => rfl
  | pkAppend nbits =>
    obtain ⟨hop, hn, hres⟩ := (eq_formatB_iff _ _ _).1 (encode_pkAppend nbits)
    rw [decode_pkAppend hop hres (by rw [hn]; exact of_decide_eq_true h), hn]
  | pkGet index =>
    obtain ⟨hop, himm, hres⟩ := (eq_formatI_iff _ _ _).1 (encode_pkGet index)
    rw [decode_pkGet hop hres, himm]
  | pkTruncate count =>
    obtain ⟨hop, himm, hres⟩ := (eq_formatI_iff _ _ _).1 (encode_pkTruncate count)
    rw [decode_pkTruncate hop hres, himm]

/-- An accepted word has no bits but its opcode and its operand, which are those of the encoded command. -/
theorem encode_of_decode {c : Word} {i : Instr} (h : decode c = .ok i) : i.wellFormed = true ∧ encode i = c := by
  obtain ⟨hmem, hres⟩ | ⟨mk, hmem, hres, hn, rfl⟩ | ⟨mk, hmem, hres, rfl⟩ := decode_ok_cases h
  · obtain ⟨hwf, henc⟩ := encode_formatN (formatN_mem_iff.1 hmem)
    exact ⟨hwf, henc.trans ((eq_formatN_iff c _).2 ⟨rfl, hres⟩).symm⟩
  · obtain ⟨hop, rfl⟩ := formatB_mem_iff.1 hmem
    exact ⟨decide_eq_true hn, (encode_pkAppend _).trans ((eq_formatB_iff c _ _).2 ⟨hop, rfl, hres⟩).symm⟩
  · obtain ⟨hop, rfl⟩ | ⟨hop, rfl⟩ := formatI_mem_iff.1 hmem
    · exact ⟨rfl, (encode_pkGet _).trans ((eq_formatI_iff c _ _).2 ⟨hop, rfl, hres⟩).symm⟩
    · exact ⟨rfl, (encode_pkTruncate _).trans ((eq_formatI_iff c _ _).2 ⟨hop, rfl, hres⟩).symm⟩

/-- The word of a command lies in its row (R86). -/
theorem encode_and_maskWord (i : Instr) : encode i &&& i.maskWord = i.matchWord := by
  cases i with
  | nop | treeLoad | cwClear | cwDerive | encBlock | decBlock | decReset | pkClear => rfl
  | pkAppend nbits =>
    obtain ⟨hop, -, hres⟩ := (eq_formatB_iff _ _ _).1 (encode_pkAppend nbits)
    exact (and_maskB_iff _ _).2 ⟨hop, hres⟩
  | pkGet index =>
    obtain ⟨hop, -, hres⟩ := (eq_formatI_iff _ _ _).1 (encode_pkGet index)
    exact (and_maskI_iff _ _).2 ⟨hop, hres⟩
  | pkTruncate count =>
    obtain ⟨hop, -, hres⟩ := (eq_formatI_iff _ _ _).1 (encode_pkTruncate count)
    exact (and_maskI_iff _ _).2 ⟨hop, hres⟩

/-- A word of a row, for PK_APPEND with NBITS in range, is accepted as a command of the row: a mask keeps the opcode and the
reserved bits of its format (R86). -/
theorem decode_of_and_maskWord {c : Word} {i : Instr} (h : c &&& i.maskWord = i.matchWord)
    (hn : i.matchWord = 0x41#64 → (nbitsField c).toNat ≤ 64) :
    ∃ j, decode c = .ok j ∧ j.matchWord = i.matchWord ∧ j.maskWord = i.maskWord := by
  have oneWord (hmask : i.maskWord = BitVec.allOnes 64) (hwf : i.wellFormed = true) (henc : encode i = i.matchWord) :
      ∃ j, decode c = .ok j ∧ j.matchWord = i.matchWord ∧ j.maskWord = i.maskWord := by
    rw [hmask, BitVec.and_allOnes, ← henc] at h
    exact ⟨i, h ▸ decode_encode hwf, rfl, rfl⟩
  cases i with
  | nop | treeLoad | cwClear | cwDerive | encBlock | decBlock | decReset | pkClear => exact oneWord rfl rfl rfl
  | pkAppend nbits =>
    obtain ⟨hop, hres⟩ := (and_maskB_iff c 0x41).1 h
    exact ⟨_, decode_pkAppend hop hres (hn rfl), rfl, rfl⟩
  | pkGet index =>
    obtain ⟨hop, hres⟩ := (and_maskI_iff c 0x42).1 h
    exact ⟨_, decode_pkGet hop hres, rfl, rfl⟩
  | pkTruncate count =>
    obtain ⟨hop, hres⟩ := (and_maskI_iff c 0x43).1 h
    exact ⟨_, decode_pkTruncate hop hres, rfl, rfl⟩

/-! ### The engine on a command word (R104, R107) -/

theorem engineStep_of_decode_ok {s : State} {i : Instr} (h : decode s.lastCmd = .ok i) : engineStep s = exec i s := by
  simp only [engineStep, h]

theorem engineStep_of_decode_error {s : State} {e : DecodeError} (h : decode s.lastCmd = .error e) :
    engineStep s = .next (s.raise (Err.illegal e)) := by
  simp only [engineStep, h, execIllegal]

theorem step_of_engineTurn {s : State} (h : engineTurn s = true) : step s = engineStep s := if_pos h

end Sys2Proof.Machine
end

section
/-! The statements of 30_encoding.md: the decoder against the encoder (R82 to R86) and the engine's checks of a command word (R87,
R88). -/

namespace Sys2Proof.Machine

/-- Settles O1: the encoded word's fields are the command's (`decode_encode`). -/
theorem decodeInvertsEncode : Obligations.DecodeInvertsEncode := fun _ => decode_encode

/-- Settles O2: an accepted word is put together from its opcode and its operand alone (`encode_of_decode`). -/
theorem encodeInvertsDecode : Obligations.EncodeInvertsDecode := fun _ _ => encode_of_decode

/-- Settles O3: an accepted word is the encoding of its command, whose row's mask drops the operand (`encode_and_maskWord`); a word
of a row has that row's opcode and no reserved bit set (`decode_of_and_maskWord`). -/
theorem wordSelectsItsTableRow : Obligations.WordSelectsItsTableRow := by
  refine ⟨fun c i h => ?_, fun _ _ => decode_of_and_maskWord⟩
  obtain ⟨-, rfl⟩ := encode_of_decode h
  exact encode_and_maskWord i

/-- Settles O4: each clause names the opcode's row and decides the checks of its format. -/
theorem engineChecksWordInOrder : Obligations.EngineChecksWordInOrder := by
  intro s c op
  have formatI_row : op ∈ [0x42#8, 0x43#8] → ∃ mk, (op, Row.formatI mk) ∈ opcodeMap := by
    intro h
    simpa [formatI_mem_iff, exists_or] using h
  refine ⟨fun hop => ?_, fun hop hres => ?_, fun hop hres => ?_, fun hop hres => ?_, fun hop hres hn => ?_,
    fun p hp hop hres => ?_, fun hop hres hn => ?_, fun hop hres => ?_, fun hop hres => ?_⟩
  · exact engineStep_of_decode_error (decode_unknown (rowOf_eq_none_iff.2 hop))
  · obtain ⟨⟨_, i⟩, hmem, rfl⟩ := List.mem_map.1 (show op ∈ formatNRows.map Prod.fst from hop)
    exact engineStep_of_decode_error ((decode_formatN (formatN_mem_iff.2 hmem)).trans (if_pos hres))
  · exact engineStep_of_decode_error ((decode_formatB (formatB_mem_iff.2 ⟨hop, rfl⟩)).trans (if_pos hres))
  · obtain ⟨mk, hmem⟩ := formatI_row hop
    exact engineStep_of_decode_error ((decode_formatI hmem).trans (if_pos hres))
  · exact engineStep_of_decode_error
      ((decode_formatB (formatB_mem_iff.2 ⟨hop, rfl⟩)).trans ((if_neg (not_not.2 hres)).trans (if_pos hn)))
  · have hmem : (op, p.2) ∈ formatNRows := hop ▸ hp
    exact engineStep_of_decode_ok ((decode_formatN (formatN_mem_iff.2 hmem)).trans (if_neg (not_not.2 hres)))
  · exact engineStep_of_decode_ok (decode_pkAppend hop hres hn)
  · exact engineStep_of_decode_ok (decode_pkGet hop hres)
  · exact engineStep_of_decode_ok (decode_pkTruncate hop hres)

/-- Settles O5: the engine's step of an illegal word is the `raise` of its cause, and `decode_error_cases` names the cause. -/
theorem illegalWordChangesOnlyCompletion : Obligations.IllegalWordChangesOnlyCompletion := by
  intro s e hturn he
  have hstep : step s = .next (s.raise (Err.illegal e)) :=
    (step_of_engineTurn hturn).trans (engineStep_of_decode_error he)
  obtain ⟨rfl, hop⟩ | ⟨rfl, hop, hres⟩ | ⟨rfl, hop, hn⟩ := decode_error_cases he
  · exact ⟨1, 0, hstep, .inl ⟨rfl, rfl, hop⟩⟩
  · exact ⟨2, 0, hstep, .inr (.inl ⟨rfl, rfl, hop, hres⟩)⟩
  · exact ⟨3, _, hstep, .inr (.inr ⟨rfl, rfl, hop, hn⟩)⟩

/-- Settles O6: each word is decoded by evaluation. -/
theorem specWordsDecode : Obligations.SpecWordsDecode := by
  unfold Obligations.SpecWordsDecode
  decide

end Sys2Proof.Machine
end

section
/-! SUPPORT. The life of a command: whose turn it is, what its completion says of the error fields and of the rest of the state, and
that a host action leaves a pending command alone (R101 to R105, R108, R170). -/

namespace Sys2Proof.Machine

/-! ### Turns -/

/-- When the engine's turn has come (R104, R108). -/
theorem engineTurn_iff {s : State} :
    engineTurn s = true ↔
      s.busy = true ∧ (s.engineDelay = 0 ∨ s.hostQueue = [] ∨ s.hostQueue.head? = some .wait) := by
  rw [engineTurn, Bool.and_eq_true]
  refine and_congr_right fun _ => ?_
  cases s.hostQueue with
  | nil => simp
  | cons a rest => cases a <;> simp

theorem decode_of_decodeTableWord {nbits w : Nat} {i : Instr} (h : decodeTableWord nbits w = some i) :
    decode (tableWord nbits w) = .ok i := by
  rw [decodeTableWord] at h
  cases hd : decode (tableWord nbits w) with
  | ok j => simpa [hd, Except.toOption] using h
  | error e => simp [hd, Except.toOption] at h

/-! ### Completion (R103, R170) -/

/-- A command that ends sets DONE (R103). -/
theorem exec_done {i : Instr} {s t : State} (h : exec i s = .next t) : t.done = true := by
  obtain ⟨u, -, rfl⟩ | ⟨u, e, -, rfl⟩ := exec_cases h <;> rfl

theorem engineStep_done {s t : State} (h : engineStep s = .next t) : t.done = true := by
  obtain ⟨i, -, hrun⟩ | ⟨e, -, hrun⟩ := engineStep_cases s <;> rw [hrun] at h
  · exact exec_done h
  · cases h; rfl

/-- A success leaves the error fields as issue left them (R103). -/
theorem Effect.errorFields {s u : State} {i : Instr} (h : Effect s i u) :
    u.err = s.err ∧ u.errCode = s.errCode ∧ u.errSub = s.errSub ∧ u.errIndex = s.errIndex ∧ u.errSym = s.errSym := by
  cases h <;> exact ⟨rfl, rfl, rfl, rfl, rfl⟩

/-- The walk of TREE_LOAD fails with one of the first three sub-codes (R131). -/
theorem loadWalk_error_sub {alphabet : List Byte} {shape : List Bool} {w : Walk} {e : Nat × Nat}
    (h : loadWalk alphabet shape w = .error e) : e.1 ∈ [1, 2, 3] := by
  induction shape generalizing w with
  | nil =>
    rw [loadWalk] at h
    split_ifs at h
    cases h
    simp
  | cons b rest ih =>
    rw [loadWalk] at h
    split_ifs at h
    · split at h
      · cases h
        simp
      · exact ih h
    · cases h
      simp
    · exact ih h

/-- TREE_LOAD fails with one of the six sub-codes of CORRUPT_TREE (R131, R170). -/
theorem loadTree_error_sub {shape : List Bool} {alphabet : List Byte} {e : Nat × Nat}
    (h : loadTree shape alphabet = .error e) : e.1 ∈ [1, 2, 3, 4, 5, 6] := by
  rw [loadTree] at h
  split at h
  · next hwalk =>
    cases h
    exact List.mem_append_left [4, 5, 6] (loadWalk_error_sub hwalk)
  · split at h
    · cases h
      simp
    · split_ifs at h <;> cases h <;> simp

/-- A failing command records an error R170 lists for it. -/
theorem Failure.mem_errorsOf {s u : State} {i : Instr} {e : Err} (h : Failure s i u e) : (e.code, e.sub) ∈ errorsOf i := by
  cases h with
  | treeLoad sub index hload =>
    have listed : ∀ n ∈ [1, 2, 3, 4, 5, 6], (2#8, BitVec.ofNat 8 n) ∈ errorsOf .treeLoad := by decide
    exact listed sub (loadTree_error_sub hload)
  | encBlock bits e hlen hrun he =>
    obtain ⟨k, sym, rfl | rfl⟩ := he <;> simp [errorsOf, Err.noCodeword, Err.encodeCapacity]
  | pkAppendIllFormed n hn => simp [errorsOf, Nat.not_le.2 hn, Err.illegal]
  | pkAppend n hn hfull => simp [errorsOf, hn, Err.appendCapacity]
  | cwDerive | decBlock | pkGet | pkTruncate => exact List.mem_singleton.2 rfl

/-- ERR_SYM is recorded by ENC_BLOCK and by ILLEGAL_CMD alone (R170, R171). -/
theorem Failure.sym_eq_zero {s u : State} {i : Instr} {e : Err} (h : Failure s i u e) :
    e.sym = 0 ∨ i = .encBlock ∨ (e.code = 6 ∧ e.sym = 0x41) := by
  cases h with
  | encBlock => exact .inr (.inl rfl)
  | pkAppendIllFormed => exact .inr (.inr ⟨rfl, rfl⟩)
  | _ => exact .inl rfl

/-! ### A pending command between two actions of the host (R102, R108) -/

@[simp] theorem State.reply_engineDelay (s : State) (r : Option Word) : (s.reply r).engineDelay = s.engineDelay := by
  cases r <;> rfl
@[simp] theorem State.reply_lastCmd (s : State) (r : Option Word) : (s.reply r).lastCmd = s.lastCmd := by cases r <;> rfl

/-- A write while a command is pending changes neither its delay nor its word. -/
theorem State.writeLoc_pending {s : State} (v : Word) (l : Loc) (hb : s.busy = true) :
    (s.writeLoc v l).engineDelay = s.engineDelay ∧ (s.writeLoc v l).lastCmd = s.lastCmd := by
  cases l with
  | cmd => simp [State.writeLoc, hb]
  | bbufLen | inLen => simp only [State.writeLoc]; split <;> exact ⟨rfl, rfl⟩
  | _ => exact ⟨rfl, rfl⟩

/-- An action of the host after which the command is still pending changes neither its delay nor its word. -/
theorem hostAct_pending {a : HostAction} {s t : State} (h : hostAct a s = .next t) (hs : s.busy = true)
    (ht : t.busy = true) : t.engineDelay = s.engineDelay ∧ t.lastCmd = s.lastCmd := by
  obtain ⟨-, -, r, -, rfl⟩ | ⟨off, v, -, -, -, -, rfl⟩ | ⟨-, rfl⟩ | ⟨-, rfl⟩ := hostAct_cases h
  · simp
  · exact State.writeLoc_pending v _ hs
  · exact ⟨rfl, rfl⟩
  · cases ht

end Sys2Proof.Machine
end

section
/-! The statements of 40_control.md: the two agents (R6, R104, R108) and the life of a command (R101 to R105). -/

namespace Sys2Proof.Machine

/-- Settles O10: a success keeps the error fields (`Effect.errorFields`), a failure records a listed error
(`Failure.mem_errorsOf`). -/
theorem completionRecordsListedError : Obligations.CompletionRecordsListedError := by
  intro i s t h
  refine ⟨exec_busy h, exec_done h, ?_⟩
  obtain ⟨u, hu, rfl⟩ | ⟨u, e, hu, rfl⟩ := exec_cases h
  · exact .inl hu.errorFields
  · exact .inr ⟨rfl, hu.mem_errorsOf, hu.sym_eq_zero⟩

/-- Settles O11: a success records no error (`Effect.errorFields`); a failure leaves its part alone (`Failure`). -/
theorem failedCommandChangesOnlyCompletion : Obligations.FailedCommandChangesOnlyCompletion := by
  intro i s t hs h ht
  obtain ⟨u, hu, rfl⟩ | ⟨u, e, hu, rfl⟩ := exec_cases h
  · rw [State.complete_err, hu.errorFields.1, hs] at ht
    cases ht
  · cases hu <;> rfl

/-- Settles O12: in the invariant the engine's step gives a next state (`Inv.engineStep_next`), which has completed the command. -/
theorem pendingCommandCompletes : Obligations.PendingCommandCompletes := by
  intro s h _
  obtain ⟨t, ht⟩ := h.engineStep_next
  exact ⟨t, ht, engineStep_busy ht, engineStep_done ht⟩

/-- Settles O13: with a command pending and the host to move, the queue is not empty and the delay not over (`engineTurn_iff`), and
the action leaves the command alone (`hostAct_pending`). -/
theorem engineTurnComesNearer : Obligations.EngineTurnComesNearer := by
  intro s t hb hturn hrun ht
  have hnotDue : ¬ (s.engineDelay = 0 ∨ s.hostQueue = [] ∨ s.hostQueue.head? = some .wait) := fun hdue => by
    simp [engineTurn_iff.2 ⟨hb, hdue⟩] at hturn
  obtain ⟨hengine, -⟩ | ⟨-, hempty, -⟩ | ⟨a, rest, -, -, hstep⟩ := step_cases s
  · simp [hengine] at hturn
  · exact absurd (.inr (.inl hempty)) hnotDue
  · obtain ⟨hdelay, hcmd⟩ := hostAct_pending (hstep.symm.trans hrun) (s := s.popAction rest) hb ht
    have hwaits : s.engineDelay ≠ 0 := fun hzero => hnotDue (.inl hzero)
    refine ⟨?_, hcmd⟩
    rw [hdelay, State.popAction_engineDelay, if_pos hb]
    omega

/-- Settles O7: `step` by whose turn it is (`engineTurn_iff`), and the engine's step by what the word decodes to. -/
theorem stepRunsDecodedCommand : Obligations.StepRunsDecodedCommand := by
  have runs (s : State) (i : Instr) (hturn : engineTurn s = true) (hdecode : decode s.lastCmd = .ok i) :
      step s = exec i s := (step_of_engineTurn hturn).trans (engineStep_of_decode_ok hdecode)
  refine ⟨runs, fun s hb => ?_, fun s hturn => ?_, fun s hb hdue => engineTurn_iff.2 ⟨hb, hdue⟩, fun s nbits w i hw => ?_⟩
  · rw [engineTurn, hb, Bool.false_and]
  · simp [step, hturn]
  · exact runs _ i (engineTurn_iff.2 ⟨rfl, .inl rfl⟩) (decode_of_decodeTableWord hw)

/-- Settles O8: CMD lies at 0x20, and its write while no command is pending is the issue. -/
theorem commandWriteIssues : Obligations.CommandWriteIssues := by
  intro s c hb
  have h : HostWrites s 0x20 c (s.writeLoc c .cmd) := hostWrites_idle hb (by decide) rfl
  rw [State.writeLoc, hb] at h
  exact ⟨_, h⟩

/-- Settles O9: CMD may be written while a command is pending, and the write is dropped. -/
theorem commandWriteWhileBusyIsDropped : Obligations.CommandWriteWhileBusyIsDropped := by
  intro s c hb hdelay
  have h : HostWrites s 0x20 c (s.waited.writeLoc c .cmd) :=
    hostWrites_of_hostMoves (fun _ => hdelay) (by decide) rfl fun _ => rfl
  rwa [State.waited_pending hb, State.writeLoc, if_pos hb] at h

end Sys2Proof.Machine
end

section
/-! SUPPORT. The bit buffer as the list of its bits below BBUF_LEN: what an append and a truncation leave of it, and the container
operations of R129 one at a time and in sequence. -/

namespace Sys2Proof.Machine

/-! ### The bits of PK_DATA and of the buffer -/

@[simp] theorem State.length_pkBits (s : State) (n : Nat) : (s.pkBits n).length = n := by simp [State.pkBits]

theorem State.getElem?_pkBits (s : State) {n j : Nat} (hj : j < n) : (s.pkBits n)[j]? = some (s.pkData.getLsbD j) := by
  simp [State.pkBits, hj]

/-- The one bit of PK_DATA that PK_APPEND 1 appends, staged as R129 stages it. -/
theorem State.pkBits_one_ofBool (s : State) (b : Bool) :
    State.pkBits { s with pkData := (BitVec.ofBool b).setWidth 64 } 1 = [b] := by
  simp [State.pkBits]

@[simp] theorem State.length_blockBits (s : State) : s.blockBits.length = s.bbufLen := Memory.length_bits ..

theorem State.blockBits_eq_nil {s : State} (h : s.bbufLen = 0) : s.blockBits = [] := by
  rw [State.blockBits, h]
  rfl

/-- Element `i` of the block is bit `i` of the buffer, `i` below BBUF_LEN. -/
theorem State.getElem?_blockBits_eq_some {s : State} {i : Nat} {b : Bool} (h : s.blockBits[i]? = some b) :
    i < s.bbufLen ∧ s.bbuf.bit i = b := by
  rw [State.blockBits, Memory.getElem?_bits, Nat.zero_add] at h
  split_ifs at h with hi
  exact ⟨hi, Option.some.inj h⟩

/-- RESULT after PK_GET is the bit read, zero-extended (R125). -/
theorem flagAt_zero_eq_setWidth (b : Bool) : flagAt b 0 = (BitVec.ofBool b).setWidth 64 := BitVec.shiftLeft_zero _

/-- A write of consecutive bits leaves every bit outside their range alone. -/
theorem Memory.bit_setBits_of_outside (bs : List Bool) (m : Memory) (i k : Nat) (h : k < i ∨ i + bs.length ≤ k) :
    (m.setBits i bs).bit k = m.bit k := by
  rw [Memory.bit_setBits]
  split
  · rw [List.getElem?_eq_none (by omega), Option.getD_none]
  · rfl

/-- A write of consecutive bits leaves the bits before it alone. -/
theorem Memory.bits_setBits_before (bs : List Bool) (m : Memory) {i n : Nat} (h : n ≤ i) :
    (m.setBits i bs).bits 0 n = m.bits 0 n :=
  Memory.bits_congr fun t ht => Memory.bit_setBits_of_outside bs m i (0 + t) (.inl (by omega))

theorem Memory.take_bits (m : Memory) (i : Nat) {n k : Nat} (h : k ≤ n) : (m.bits i n).take k = m.bits i k := by
  obtain ⟨d, rfl⟩ := Nat.exists_eq_add_of_le h
  rw [Memory.bits_append, List.take_left' (Memory.length_bits ..)]

/-- An append adds its bits at the end of the block (R120). -/
theorem State.blockBits_appendBits (s : State) (bits : List Bool) : (s.appendBits bits).blockBits = s.blockBits ++ bits := by
  simp only [State.blockBits, State.appendBits_bbuf, State.appendBits_bbufLen]
  rw [Memory.bits_append, Memory.bits_setBits_before _ _ le_rfl, Nat.zero_add, Memory.bits_setBits_self]

/-! ### The container operations (R129) -/

theorem ContainerOp.fits_cons {cap : Nat} {bits : List Bool} {op : ContainerOp} {rest : List ContainerOp} :
    ContainerOp.fits cap bits (op :: rest) ↔
      ContainerOp.fits cap bits [op] ∧ ContainerOp.fits cap (op.onList bits) rest := by
  cases op <;> simp [ContainerOp.fits, ContainerOp.onList]

/-- A container operation that fits succeeds, and does to the block what it does to the list. -/
theorem ContainerOp.onMachine_next {s : State} {op : ContainerOp} (h : ContainerOp.fits s.cfg.bbufCap s.blockBits [op]) :
    ∃ t, op.onMachine s = .next t ∧ t.cfg = s.cfg ∧ t.err = s.err ∧ t.blockBits = op.onList s.blockBits := by
  cases op with
  | append b =>
    have hfit : s.bbufLen < s.cfg.bbufCap := by simpa [ContainerOp.fits] using h
    refine ⟨_, (Effect.pkAppend (s := { s with pkData := (BitVec.ofBool b).setWidth 64 }) 1 (by decide) hfit).exec_eq,
      rfl, rfl, ?_⟩
    exact (State.blockBits_appendBits ..).trans (congrArg (s.blockBits ++ ·) (State.pkBits_one_ofBool s b))
  | truncate n =>
    have hfit : n.toNat ≤ s.bbufLen := by simpa [ContainerOp.fits] using h
    refine ⟨_, (Effect.pkTruncate n hfit).exec_eq, rfl, rfl, ?_⟩
    rw [ContainerOp.onList, State.length_blockBits]
    exact (Memory.bits_setBits_before _ _ le_rfl).trans (Memory.take_bits _ 0 (Nat.sub_le ..)).symm

/-- A sequence of container operations that fit succeeds, and does to the block what it does to the list. -/
theorem ContainerOp.runMachine_next {s : State} {ops : List ContainerOp}
    (h : ContainerOp.fits s.cfg.bbufCap s.blockBits ops) :
    ∃ t, ContainerOp.runMachine s ops = .next t ∧ t.err = s.err ∧ t.blockBits = ContainerOp.runList s.blockBits ops := by
  induction ops generalizing s with
  | nil => exact ⟨s, rfl, rfl, rfl⟩
  | cons op rest ih =>
    obtain ⟨hop, hrest⟩ := ContainerOp.fits_cons.1 h
    obtain ⟨t, hrun, hcfg, herr, hbits⟩ := ContainerOp.onMachine_next hop
    rw [← hcfg, ← hbits] at hrest
    obtain ⟨u, hruns, herrs, hlist⟩ := ih hrest
    exact ⟨u, by simp only [ContainerOp.runMachine, hrun, hruns], herrs.trans herr, by rw [hlist, hbits, ContainerOp.runList]⟩

end Sys2Proof.Machine
end

section
/-! The statements of 41_packer.md: the packer's commands (R121 to R127), the container property (R129), and the commands that
complete in every state (R106, R121, R135, R163). -/

namespace Sys2Proof.Machine

/-- Settles O17: a fitting PK_APPEND writes the bits of PK_DATA at BBUF_LEN (`Effect.pkAppend`, `Memory.bit_setBits`), one that does
not fit raises (`Failure.pkAppend`). -/
theorem pkAppendAppendsLowBits : Obligations.PkAppendAppendsLowBits := by
  intro s n hn
  refine ⟨rfl, fun hfit => ⟨_, (Effect.pkAppend n hn hfit).exec_eq, ?_, fun j hj => ?_, fun k hk => ?_, fun a ha => ?_⟩,
    fun hfull => (Failure.pkAppend n hn hfull).exec_eq⟩
  · simp [State.complete, State.appendBits]
  · simp [Memory.bit_setBits, State.getElem?_pkBits s hj]
  · exact Memory.bit_setBits_of_outside _ _ _ _ (by simpa using hk)
  · exact Memory.byte_setBits_of_outside _ _ _ _ (by simpa using ha)

/-- Settles O19: a PK_TRUNCATE of at most BBUF_LEN bits writes that many zeros at the end of the block (`Effect.pkTruncate`), one of
more bits raises (`Failure.pkTruncate`). -/
theorem pkTruncateRemovesLastBits : Obligations.PkTruncateRemovesLastBits := by
  intro s n
  refine ⟨rfl, fun hle => ⟨_, (Effect.pkTruncate n hle).exec_eq, rfl, fun k hlow hhigh => ?_, fun k hk => ?_, fun a ha => ?_⟩,
    fun hlt => (Failure.pkTruncate n hlt).exec_eq⟩
  · have hk : k - (s.bbufLen - n.toNat) < n.toNat := by omega
    simp [Memory.bit_setBits, hlow, hk]
  · exact Memory.bit_setBits_of_outside _ _ _ _ (by rw [List.length_replicate]; omega)
  · exact Memory.byte_setBits_of_outside _ _ _ _ (by rw [List.length_replicate]; omega)

/-- Settles O20: a fitting sequence leaves the block that it leaves of the empty list (`ContainerOp.runMachine_next`), and PK_GET reads
an element of it. -/
theorem containerKeepsItsBits : Obligations.ContainerKeepsItsBits := by
  intro s ops hlen hfits
  rw [← State.blockBits_eq_nil hlen] at hfits ⊢
  obtain ⟨t, hrun, herr, hbits⟩ := ContainerOp.runMachine_next hfits
  rw [← hbits]
  refine ⟨t, hrun, herr, t.length_blockBits.symm, fun i b hb => ?_⟩
  obtain ⟨hi, rfl⟩ := State.getElem?_blockBits_eq_some hb
  rw [← flagAt_zero_eq_setWidth]
  exact (Effect.pkGet i hi).exec_eq

/-- Settles O16: each of the four is its effect and its completion, and a cleared RAM reads 0 (`Memory.bit_zeroed`). -/
theorem controlAndClearCommandsComplete : Obligations.ControlAndClearCommandsComplete := by
  refine fun s => ⟨Effect.nop.exec_eq, Effect.decReset.exec_eq, ⟨_, Effect.pkClear.exec_eq, rfl, fun w => ?_⟩,
    ⟨_, Effect.cwClear.exec_eq, rfl, fun sym => ⟨?_, fun k _ => ?_⟩⟩⟩
  · exact BitVec.eq_of_getLsbD_eq fun j _ => by simp [Memory.getLsbD_word]
  · simp [Memory.cwLen]
  · simp [Memory.cwBit]

/-- Settles O18: PK_GET below BBUF_LEN puts the bit in RESULT (`Effect.pkGet`, `flagAt_zero`), and raises otherwise
(`Failure.pkGet`). -/
theorem pkGetReadsOneBit : Obligations.PkGetReadsOneBit := by
  intro s i
  refine ⟨rfl, fun hi => ?_, fun hge => (Failure.pkGet i hge).exec_eq⟩
  rw [← flagAt_zero]
  exact (Effect.pkGet i hi).exec_eq

end Sys2Proof.Machine
end

section
/-! SUPPORT. TREE_LOAD on a shape and an alphabet that begin with those of a tree, whole or cut off inside it, and the table that
CW_DERIVE leaves of a tree. -/

namespace Sys2Proof.Machine

@[simp] theorem State.length_inputBytes (s : State) : s.inputBytes.length = s.inLen := by
  simp [State.inputBytes, Memory.bytes]

/-! ### TREE_LOAD on a whole tree (R131, R134) -/

/-- The walk over a whole tree of at most 256 leaves stops behind it, whatever follows in the shape and the alphabet. -/
theorem loadWalk_tree {t : HTree} (h : t.leaves ≤ 256) (bits : List Bool) (bytes : List Byte) :
    loadWalk (t.alphabet ++ bytes) (t.shape ++ bits) Walk.start = .ok (Walk.start.after t) := by
  rw [loadWalk_shape t _ bytes bits _ (by decide) rfl (by simp only [Walk.start]; omega)]
  exact loadWalk_done rfl

/-- A tree that is one leaf fails the first check after the walk (R131). -/
theorem loadTree_leaf (sym : Byte) (bits : List Bool) (bytes : List Byte) :
    loadTree ((HTree.leaf sym).shape ++ bits) ((HTree.leaf sym).alphabet ++ bytes) = .error (4, 0) := by
  rw [loadTree, loadWalk_tree (by simp [HTree.leaves])]
  rfl

/-- The two checks behind the root's (R131): bits left over in the shape, then bytes left over in the alphabet. -/
theorem loadTree_node {t : HTree} (hnode : t.isNode = true) (hmax : t.leaves ≤ 256) (bits : List Bool) (bytes : List Byte) :
    loadTree (t.shape ++ bits) (t.alphabet ++ bytes) =
      if bits = [] then if bytes = [] then .ok (Walk.start.after t) else .error (6, t.leaves) else .error (5, t.size) := by
  cases t with
  | leaf sym => cases hnode
  | node l r =>
    have hslot : (Walk.start.after (.node l r)).t[0]? = some .internal := rfl
    have hk : (Walk.start.after (.node l r)).k = (HTree.node l r).size := Nat.zero_add _
    have ha : (Walk.start.after (.node l r)).a = (HTree.node l r).leaves := Nat.zero_add _
    simp only [loadTree, loadWalk_tree hmax, hslot, hk, ha, List.length_append, HTree.length_shape, HTree.length_alphabet]
    simp only [Nat.lt_add_right_iff_pos, List.length_pos_iff, ne_eq, ite_not]

/-- What an accepted TREE_LOAD installs is the tree that the shape and the alphabet serialize (R131, R132). -/
theorem holds_installTree {s : State} {w : Walk} {shape : List Bool} {alphabet : List Byte}
    (h : loadTree shape alphabet = .ok w) :
    ∃ t : HTree, shape = t.shape ∧ alphabet = t.alphabet ∧ Holds t (s.installTree w) := by
  obtain ⟨t, hshape, halphabet, hnode, hmax, hk, hleaf, hslots⟩ := loadTree_ok h
  exact ⟨t, hshape, halphabet, rfl, hnode, hmax, by rw [State.installTree_nodes, hslots, linkTree_scratch], hk, hleaf⟩

/-! ### TREE_LOAD inside a tree (R131) -/

theorem loadTree_of_walk_error {shape : List Bool} {alphabet : List Byte} {e : Nat × Nat}
    (h : loadWalk alphabet shape Walk.start = .error e) : loadTree shape alphabet = .error e := by
  rw [loadTree, h]

section
variable {t : HTree} {alphabet : List Byte} {pre post : List Bool}

/-- After a proper beginning of a tree's shape the walk stands at its end, with a subtree still to read. -/
theorem loadWalk_start_open (hshape : t.shape = pre ++ post) (hpost : post ≠ []) (ha : pre.count true ≤ alphabet.length)
    (hi : pre.count false ≤ 255) (bits : List Bool) :
    ∃ v, loadWalk alphabet (pre ++ bits) Walk.start = loadWalk alphabet bits v ∧ v.k = pre.length ∧ v.a = pre.count true ∧
      v.nint = pre.count false ∧ v.need ≠ 0 := by
  simpa [Walk.start, Nat.pos_iff_ne_zero] using
    loadWalk_open t alphabet pre post bits Walk.start (by decide) hshape hpost (by simpa [Walk.start]) (by simpa [Walk.start])

/-- SHAPE_EXHAUSTED: the shape ends inside the tree. -/
theorem loadTree_shapeExhausted (hshape : t.shape = pre ++ post) (hpost : post ≠ []) (ha : pre.count true ≤ alphabet.length)
    (hi : pre.count false ≤ 255) : loadTree pre alphabet = .error (1, pre.length) := by
  obtain ⟨v, hwalk, hk, -, -, hneed⟩ := loadWalk_start_open hshape hpost ha hi []
  rw [List.append_nil] at hwalk
  exact loadTree_of_walk_error (by rw [hwalk, loadWalk, if_neg hneed, hk])

/-- ALPHA_EXHAUSTED: a leaf bit comes when every byte of the alphabet is used. -/
theorem loadTree_alphaExhausted (hshape : t.shape = pre ++ true :: post) (ha : pre.count true = alphabet.length)
    (hi : pre.count false ≤ 255) (bits : List Bool) : loadTree (pre ++ true :: bits) alphabet = .error (2, pre.length) := by
  obtain ⟨v, hwalk, hk, hva, -, hneed⟩ := loadWalk_start_open hshape (by simp) ha.le hi (true :: bits)
  have hused : alphabet[v.a]? = none := List.getElem?_eq_none (by omega)
  exact loadTree_of_walk_error (by simp only [hwalk, loadWalk, if_neg hneed, if_true, hused, hk])

/-- TOO_MANY_NODES: an internal bit comes when 255 internal nodes are read. -/
theorem loadTree_tooManyNodes (hshape : t.shape = pre ++ false :: post) (ha : pre.count true ≤ alphabet.length)
    (hi : pre.count false = 255) (bits : List Bool) : loadTree (pre ++ false :: bits) alphabet = .error (3, pre.length) := by
  obtain ⟨v, hwalk, hk, -, hint, hneed⟩ := loadWalk_start_open hshape (by simp) ha hi.le (false :: bits)
  exact loadTree_of_walk_error (by simp [hwalk, loadWalk, hneed, hint, hi, hk])

end

/-! ### The table of a tree (R136) -/

/-- The table CW_DERIVE leaves of a tree. -/
def HTree.table (t : HTree) : Memory := Memory.zeroed.setCodewords t.paths

section
variable {t : HTree} (hmax : t.leaves ≤ 256) {sym : Byte}
include hmax

theorem HTree.length_path_lt {x : Byte × List Bool} (hx : x ∈ t.paths) : x.2.length < 256 := by
  have := HTree.length_path hx
  omega

theorem HTree.cwLen_table : t.table.cwLen sym = ((t.codeword sym).map List.length).getD 0 := by
  rw [HTree.table, Memory.cwLen_setCodewords _ _ _ fun _ => HTree.length_path_lt hmax, HTree.codeword]
  cases t.paths.reverse.find? fun x => x.1 == sym <;> simp [Memory.cwLen]

theorem HTree.cwBit_table {p : List Bool} (hp : t.codeword sym = some p) {k : Nat} {b : Bool} (hb : p[k]? = some b) :
    t.table.cwBit sym k = b := by
  obtain ⟨x, hx, rfl⟩ := Option.map_eq_some_iff.1 hp
  exact Memory.cwBit_setCodewords _ _ _ _ _ _ (fun _ => HTree.length_path_lt hmax) hx hb

/-- A code bit that no path of its symbol reaches is 0. -/
theorem HTree.cwBit_table_beyond {k : Nat} (hk : k < 256) (hbeyond : ∀ x ∈ t.paths, x.1 = sym → x.2.length ≤ k) :
    t.table.cwBit sym k = false := by
  rw [HTree.table, Memory.cwBit_setCodewords_beyond _ _ _ _ hk (fun _ => HTree.length_path_lt hmax) hbeyond]
  exact Memory.bit_zeroed _

/-- An entry of the table reads back as the symbol's codeword. -/
theorem HTree.codeword_table {p : List Bool} (hp : t.codeword sym = some p) : t.table.codeword sym = p := by
  have hlen : t.table.cwLen sym = p.length := by simp [HTree.cwLen_table hmax, hp]
  refine List.ext_getElem? fun k => ?_
  rw [Memory.codeword, Memory.getElem?_bits, hlen]
  split_ifs with hk
  · have hb := List.getElem?_eq_getElem hk
    rw [hb]
    exact congrArg some (HTree.cwBit_table hmax hp hb)
  · exact (List.getElem?_eq_none (Nat.le_of_not_lt hk)).symm

/-- An entry in use is a path of the tree to a leaf of its symbol. -/
theorem HTree.codeword_table_mem_paths (hused : t.table.cwLen sym ≠ 0) : (sym, t.table.codeword sym) ∈ t.paths := by
  rw [HTree.cwLen_table hmax] at hused
  cases hp : t.codeword sym with
  | none => simp [hp] at hused
  | some p =>
    rw [HTree.codeword_table hmax hp]
    exact HTree.codeword_some hp

end

/-- With a tree loaded CW_DERIVE completes and writes the table alone. -/
theorem Holds.exec_cwDerive_table {t : HTree} {s : State} (h : Holds t s) :
    exec .cwDerive s = .next { s with cwt := t.table }.complete := h.exec_cwDerive

end Sys2Proof.Machine
end

section
/-! The statements of 42_tree.md: TREE_LOAD on serialized trees and on everything else (R131 to R134), and CW_DERIVE (R136, R137). -/

namespace Sys2Proof.Machine

/-- Settles O22: the walk over the tree's shape uses it up with its alphabet (`loadTree_node`), and linking its slots gives the arena
(`linkTree_scratch`). -/
theorem treeLoadRebuildsSerializedTree : Obligations.TreeLoadRebuildsSerializedTree := by
  intro t s hmin hmax hbits hbytes
  have hload : loadTree s.blockBits s.inputBytes = .ok (Walk.start.after t) := by
    simpa [hbits, hbytes] using loadTree_node (t.isNode_iff.2 hmin) hmax [] []
  rw [(Effect.treeLoad _ hload).exec_eq]
  simp [State.complete, State.installTree, Walk.after, Walk.start, linkTree_scratch]

/-- Settles O23: a TREE_LOAD that records no error is one that installs a tree (`exec_cases`), and that tree is the one serialized
(`holds_installTree`). -/
theorem treeLoadAcceptsOnlyTrees : Obligations.TreeLoadAcceptsOnlyTrees := by
  intro s u _ hrun herr
  obtain ⟨v, heffect, rfl⟩ | ⟨v, e, -, rfl⟩ := exec_cases hrun
  · cases heffect with
    | treeLoad w hload =>
      obtain ⟨t, hshape, halphabet, ht⟩ := holds_installTree (s := s) hload
      exact ⟨t, ht.two_le_leaves, ht.leaves, hshape, halphabet, ht.of_treePart rfl, rfl⟩
  · cases herr

/-- Settles O24: TREE_LOAD installs the tree its checks accept, or drops the tree with one of the six sub-codes
(`loadTree_error_sub`). -/
theorem treeLoadSucceedsOrDropsTree : Obligations.TreeLoadSucceedsOrDropsTree := by
  intro s
  cases hload : loadTree s.blockBits s.inputBytes with
  | ok w =>
    obtain ⟨t, -, -, ht⟩ := holds_installTree (s := s) hload
    exact ⟨_, (Effect.treeLoad w hload).exec_eq, rfl, .inl ⟨rfl, ⟨t, ht.of_treePart rfl⟩, rfl, rfl, rfl, rfl, rfl⟩⟩
  | error e =>
    have hsub : BitVec.ofNat 8 e.1 ∈ [1#8, 2, 3, 4, 5, 6] := List.mem_map_of_mem (loadTree_error_sub hload)
    exact ⟨_, (Failure.treeLoad e.1 e.2 hload).exec_eq, rfl, .inr ⟨rfl, rfl, rfl, rfl, rfl, hsub, rfl⟩⟩

/-- Settles O25: the three checks after the walk (`loadTree_leaf`, `loadTree_node`), each failure dropping the tree. -/
theorem closedTreeChecksInOrder : Obligations.ClosedTreeChecksInOrder := by
  intro t s bits bytes hmax hbits hbytes
  refine ⟨fun hleaf => ?_, fun hnode hmore => ?_, fun hnode hend hmore => ?_⟩
  · cases t with
    | leaf sym => exact (Failure.treeLoad 4 0 (by rw [hbits, hbytes, loadTree_leaf])).exec_eq
    | node l r => cases hleaf
  · exact (Failure.treeLoad 5 t.size (by rw [hbits, hbytes, loadTree_node hnode hmax, if_neg hmore])).exec_eq
  · exact (Failure.treeLoad 6 t.leaves
      (by rw [hbits, hbytes, loadTree_node hnode hmax, if_pos hend, if_neg hmore])).exec_eq

/-- Settles O26: the three failures of the walk inside a tree (`loadTree_shapeExhausted`, `loadTree_alphaExhausted`,
`loadTree_tooManyNodes`), each dropping the tree. -/
theorem openTreeFailures : Obligations.OpenTreeFailures := by
  refine ⟨fun t s post hshape hpost ha hi => ?_, fun t s pre post bits hshape hbits ha hi => ?_,
    fun t s pre post bits hshape hbits ha hi => ?_⟩ <;> rw [← s.length_inputBytes] at ha
  · have hload := loadTree_shapeExhausted hshape hpost ha hi
    rw [State.length_blockBits] at hload
    exact (Failure.treeLoad _ _ hload).exec_eq
  · exact (Failure.treeLoad 2 pre.length (by rw [hbits, loadTree_alphaExhausted hshape ha hi])).exec_eq
  · exact (Failure.treeLoad 3 pre.length (by rw [hbits, loadTree_tooManyNodes hshape ha hi])).exec_eq

/-- Settles O28: CW_DERIVE leaves the table of the tree (`Holds.exec_cwDerive_table`), whose entries are the symbols' last paths
(`HTree.cwLen_table`, `HTree.cwBit_table`), or fails with no tree loaded (`Failure.cwDerive`). -/
theorem cwDeriveRecordsPaths : Obligations.CwDeriveRecordsPaths := by
  refine ⟨fun t s ht => ⟨_, ht.exec_cwDerive_table, rfl, fun sym => ⟨fun hnone => ?_, fun p hp => ⟨?_, fun k b hb => ?_⟩,
    fun k hk hbeyond => HTree.cwBit_table_beyond ht.leaves hk hbeyond⟩⟩, fun s hv => (Failure.cwDerive hv).exec_eq⟩
  · exact (HTree.cwLen_table ht.leaves).trans (by rw [hnone]; rfl)
  · exact (HTree.cwLen_table ht.leaves).trans (by rw [hp]; rfl)
  · exact HTree.cwBit_table ht.leaves hp hb

/-- Settles O29: the entries in use are paths of the tree (`HTree.codeword_table_mem_paths`), no leaf's path begins another leaf's
(`HTree.path_prefix`), and each walks to its leaf (`HTree.walk_path`). -/
theorem derivedTableIsPrefixFree : Obligations.DerivedTableIsPrefixFree := by
  intro t s u ht hrun
  obtain rfl : { s with cwt := t.table }.complete = u := Host.Outcome.next.inj (ht.exec_cwDerive_table.symm.trans hrun)
  have hpath : ∀ a : Byte, t.table.cwLen a ≠ 0 → (a, t.table.codeword a) ∈ t.paths := fun _ =>
    HTree.codeword_table_mem_paths ht.leaves
  refine ⟨fun a b hne ha hb hprefix => ?_, fun a ha => ?_, fun a ha => ?_⟩
  · exact hne (congrArg Prod.fst (HTree.path_prefix (hpath a ha) (hpath b hb) hprefix))
  · obtain ⟨p, hp⟩ := HTree.codeword_isSome ha
    have hlen : t.table.cwLen a = p.length := by rw [HTree.cwLen_table ht.leaves, hp]; rfl
    exact (ht.length_path_bounds (HTree.codeword_some hp)).1.trans_eq hlen.symm
  · simpa [HTree.walk] using t.walk_path t _ [] ht.isNode (hpath a ha)

end Sys2Proof.Machine
end

section
/-! SUPPORT. The loop of ENC_BLOCK (R150): what it does at the first byte that fails, what an encoding leaves in the cleared buffer,
and that it reads the table, the capacity and BBUF_LEN alone. -/

namespace Sys2Proof.Machine

/-- The checks of a byte in order: no codeword comes first (R150, R151). -/
theorem encodeFrom_noCodeword {s : State} {sym : Byte} (h : s.cwt.cwLen sym = 0) (j : Nat) (rest : List Byte) :
    encodeFrom j (sym :: rest) s = (s, some (Err.noCodeword j sym)) := if_pos h

/-- A byte that has a codeword and no room for it. -/
theorem encodeFrom_noRoom {s : State} {sym : Byte} (hused : s.cwt.cwLen sym ≠ 0)
    (hfull : s.bbufLen + s.cwt.cwLen sym > s.cfg.bbufCap) (j : Nat) (rest : List Byte) :
    encodeFrom j (sym :: rest) s = (s, some (Err.encodeCapacity j sym)) := (if_neg hused).trans (if_pos hfull)

/-- From the cleared buffer, the bytes that all encode and fit leave their codewords, and the loop goes on at the byte after them. -/
theorem encodeFrom_clearBbuf {s : State} {pre : List Byte} (h0 : ∀ x ∈ pre, s.cwt.cwLen x ≠ 0)
    (hfit : (pre.flatMap s.cwt.codeword).length ≤ s.cfg.bbufCap) (rest : List Byte) :
    encodeFrom 0 (pre ++ rest) s.clearBbuf =
      encodeFrom pre.length rest (s.clearBbuf.appendBits (pre.flatMap s.cwt.codeword)) := by
  have happend := encodeFrom_append pre rest 0 s.clearBbuf h0 (by simpa using hfit)
  rwa [Nat.zero_add] at happend

/-- A buffer filled from empty is the bits appended below BBUF_LEN, and 0 from BBUF_LEN on. -/
theorem State.block_and_padding_appendBits_clear (s : State) (bits : List Bool) :
    (s.clearBbuf.appendBits bits).blockBits = bits ∧
      ∀ k, (s.clearBbuf.appendBits bits).bbufLen ≤ k → (s.clearBbuf.appendBits bits).bbuf.bit k = false := by
  obtain ⟨hblock, hbeyond⟩ := s.blockBits_appendBits_clear bits
  exact ⟨hblock, fun k hk => hbeyond k (by simpa using hk)⟩

/-- The loop appends the same bits and meets the same error in two states with the same table, capacity and BBUF_LEN. -/
theorem encodeFrom_congr (bytes : List Byte) (j : Nat) {s u : State} (hcwt : s.cwt = u.cwt)
    (hcap : s.cfg.bbufCap = u.cfg.bbufCap) (hlen : s.bbufLen = u.bbufLen) :
    ∃ bits e, encodeFrom j bytes s = (s.appendBits bits, e) ∧ encodeFrom j bytes u = (u.appendBits bits, e) := by
  induction bytes generalizing j s u with
  | nil => exact ⟨[], none, rfl, rfl⟩
  | cons sym rest ih =>
    simp only [encodeFrom, hcwt, hcap, hlen]
    split_ifs
    · exact ⟨[], some (Err.noCodeword j sym), rfl, rfl⟩
    · exact ⟨[], some (Err.encodeCapacity j sym), rfl, rfl⟩
    · obtain ⟨bits, e, hs, hu⟩ := ih (j + 1) (s := s.appendBits (u.cwt.codeword sym)) (u := u.appendBits (u.cwt.codeword sym))
        hcwt hcap (congrArg (· + _) hlen)
      rw [State.appendBits_appendBits] at hs hu
      exact ⟨_, e, hs, hu⟩

/-- ENC_BLOCK completes, or records the error its loop meets. -/
theorem exec_encBlock_eq {s t : State} {e : Option Err} (h : encodeFrom 0 s.inputBytes s.clearBbuf = (t, e)) :
    exec .encBlock s = .next (e.elim t.complete t.raise) := by
  simp only [exec, execEncBlock, h]
  cases e <;> rfl

end Sys2Proof.Machine
end

section
/-! The statements of 43_encoder.md: ENC_BLOCK on input that encodes and fits, at the first byte that fails, and what its result
depends on (R150 to R152). -/

namespace Sys2Proof.Machine

/-- Settles O30: the loop appends the codewords of the whole input to the cleared buffer (`encodeFrom_clearBbuf`). -/
theorem encBlockConcatenatesCodewords : Obligations.EncBlockConcatenatesCodewords := by
  intro s h0 hfit
  have hrun := encodeFrom_clearBbuf h0 hfit []
  rw [List.append_nil] at hrun
  exact ⟨_, exec_encBlock_eq hrun, rfl, s.block_and_padding_appendBits_clear _⟩

/-- Settles O31: the loop appends the codewords of the bytes before (`encodeFrom_clearBbuf`) and stops at the byte that fails, with
NO_CODEWORD (`encodeFrom_noCodeword`) or else CAPACITY (`encodeFrom_noRoom`). -/
theorem encBlockStopsAtFirstFailingByte : Obligations.EncBlockStopsAtFirstFailingByte := by
  intro s pre post sym hinput h0 hfit hfail
  have hrun := encodeFrom_clearBbuf h0 hfit (sym :: post)
  rw [← hinput] at hrun
  by_cases hlen : s.cwt.cwLen sym = 0
  · rw [encodeFrom_noCodeword (by simpa using hlen)] at hrun
    simp only [if_pos hlen]
    exact ⟨_, exec_encBlock_eq hrun, rfl, s.block_and_padding_appendBits_clear _⟩
  · have hfull := hfail.resolve_left hlen
    rw [encodeFrom_noRoom (by simpa using hlen) (by simpa using hfull)] at hrun
    simp only [if_neg hlen]
    exact ⟨_, exec_encBlock_eq hrun, rfl, s.block_and_padding_appendBits_clear _⟩

/-- Settles O32: from the two cleared buffers the loop appends the same bits and meets the same error (`encodeFrom_congr`). -/
theorem encBlockIsStateless : Obligations.EncBlockIsStateless := by
  intro s u hinput hcwt hcap herr
  obtain ⟨bits, e, hs, hu⟩ := encodeFrom_congr (s := s.clearBbuf) (u := u.clearBbuf) s.inputBytes 0 hcwt hcap rfl
  rw [hinput] at hu
  refine ⟨_, _, exec_encBlock_eq hs, exec_encBlock_eq hu, ?_⟩
  cases e with
  | none => exact ⟨rfl, rfl, herr, fun hset hclear => Bool.noConfusion (hset.symm.trans hclear)⟩
  | some e => exact ⟨rfl, rfl, rfl, fun _ _ => ⟨rfl, rfl, rfl, rfl⟩⟩

end Sys2Proof.Machine
end

section
/-! SUPPORT. A DEC_BLOCK that completes as the run of its loop, and the walk over the codewords that the table of a tree holds. -/

namespace Sys2Proof.Machine

/-! ### DEC_BLOCK (R161) -/

/-- With TREE_VALID = 1 a DEC_BLOCK of `n` bits that completes has run its loop over them all: the loop's result is the new cursor
and the new output, and the tree is as it was. -/
theorem decodeCore_of_exec_decBlock {s u : State} {m : Memory} {n : Nat} (hv : s.treeValid = true)
    (hrun : exec .decBlock { s with bbuf := m, bbufLen := n } = .next u) :
    decodeCore s.node s.cursor (m.bits 0 n) = some (u.cursor, u.outputBytes) ∧ u.node = s.node ∧ u.treeValid = true := by
  obtain ⟨v, heffect, rfl⟩ | ⟨v, e, hfailure, rfl⟩ := exec_cases hrun
  · cases heffect with
    | decBlock c bytes _ hloop =>
      refine ⟨hloop.trans ?_, rfl, hv⟩
      exact congrArg (fun out => some (c, out)) (Memory.bytes_putBytes bytes s.obuf).symm
  · cases hfailure with
    | decBlock hnone => exact absurd (hv.symm.trans hnone) (by decide)

/-! ### The table and the walk over its codewords (R136, R137, R164) -/

/-- CW_DERIVE keeps the loaded tree and leaves its table. -/
theorem Holds.of_exec_cwDerive {t : HTree} {s d : State} (h : Holds t s) (hrun : exec .cwDerive s = .next d) :
    Holds t d ∧ d.cwt = t.table := by
  obtain rfl : { s with cwt := t.table }.complete = d := Host.Outcome.next.inj (h.exec_cwDerive_table.symm.trans hrun)
  exact ⟨h.of_treePart rfl, rfl⟩

/-- Only the root's index holds the whole tree. -/
theorem HTree.eq_zero_of_sub_self {t : HTree} {k : Nat} (h : t.sub k = some t) : k = 0 := by
  have := HTree.sub_size h
  omega

/-- A symbol of the alphabet has an entry in the table, and it is a path to a leaf of the symbol. -/
theorem HTree.codeword_table_mem_paths_of_mem_alphabet {t : HTree} (hmax : t.leaves ≤ 256) {sym : Byte}
    (hsym : sym ∈ t.alphabet) : (sym, t.table.codeword sym) ∈ t.paths := by
  obtain ⟨p, hp⟩ := HTree.codeword_isSome hsym
  rw [HTree.codeword_table hmax hp]
  exact HTree.codeword_some hp

/-- Walking the codewords of a list of bytes from the root emits the bytes and ends at the root. -/
theorem HTree.walk_codewords {t : HTree} (hnode : t.isNode = true) (hmax : t.leaves ≤ 256) {bytes : List Byte}
    (hbytes : ∀ sym ∈ bytes, sym ∈ t.alphabet) : t.walk t (bytes.flatMap t.table.codeword) = (bytes, t) := by
  induction bytes with
  | nil => simp [HTree.walk]
  | cons sym rest ih =>
    obtain ⟨hsym, hrest⟩ := List.forall_mem_cons.1 hbytes
    have hpath := HTree.codeword_table_mem_paths_of_mem_alphabet hmax hsym
    rw [List.flatMap_cons, t.walk_path t _ _ hnode hpath, ih hrest]

end Sys2Proof.Machine
end

section
/-! The statements of 44_decoder.md: DEC_BLOCK as the walk of the loaded tree (R160, R161), blocks that do not end with a codeword
(R162), and the round trip with ENC_BLOCK (R164). -/

namespace Sys2Proof.Machine

/-- Settles O33: DEC_BLOCK walks the tree over the buffer (`Holds.exec_decBlock`), from an internal subtree to an internal one
(`HTree.walk_isNode`) and with at most one symbol a bit (`HTree.length_walk`), or fails with no tree loaded (`Failure.decBlock`). -/
theorem decBlockWalksTree : Obligations.DecBlockWalksTree := by
  refine ⟨fun t cur s ht hcur hn => ?_, fun s hv => (Failure.decBlock hv).exec_eq⟩
  obtain ⟨c, hsub, hrun⟩ := ht.exec_decBlock hcur hn
  refine ⟨_, hrun, rfl, Memory.bytes_putBytes _ s.obuf, hsub, t.walk_isNode cur _ ht.isNode hn, ?_, fun a ha => ?_⟩
  · exact (t.length_walk cur s.blockBits).trans_eq s.length_blockBits
  · have hbeyond := List.getElem?_eq_none (show (t.walk cur s.blockBits).1.length ≤ a from ha)
    simp [Memory.byte_putBytes, hbeyond]

/-- Settles O34: each DEC_BLOCK is a run of the loop on the same tree (`decodeCore_of_exec_decBlock`), and the loop on the joined
bits is its run on the first part and then, from the cursor reached, on the second (`decodeCore_append`). -/
theorem blockBoundariesDoNotMatter : Obligations.BlockBoundariesDoNotMatter := by
  intro s s1 s2 u m1 m2 m n1 n2 hbits hrun1 hv hrun2 hrun
  obtain ⟨hloop1, hnode1, hv1⟩ := decodeCore_of_exec_decBlock hv hrun1
  obtain ⟨hloop2, -⟩ := decodeCore_of_exec_decBlock hv1 hrun2
  obtain ⟨hloop, -⟩ := decodeCore_of_exec_decBlock hv hrun
  rw [hbits, decodeCore_append, hloop1, Option.bind_some, ← hnode1, hloop2, Option.map_some] at hloop
  obtain ⟨hcursor, hout⟩ := Prod.mk.inj (Option.some.inj hloop)
  exact ⟨hcursor.symm, hout.symm⟩

/-- Settles O35: every input byte has an entry that is a path of the tree (`HTree.codeword_table_mem_paths_of_mem_alphabet`), so
ENC_BLOCK leaves the codewords of the input (O30), and DEC_BLOCK's walk over them emits the input and ends at the root
(`HTree.walk_codewords`). -/
theorem encodeThenDecodeRoundTrip : Obligations.EncodeThenDecodeRoundTrip := by
  intro t s d ht hderive hcursor hsyms hfit
  obtain ⟨htd, htable⟩ := ht.of_exec_cwDerive hderive
  have hused : ∀ sym ∈ d.inputBytes, d.cwt.cwLen sym ≠ 0 := fun sym hsym => by
    have hpath := HTree.codeword_table_mem_paths_of_mem_alphabet ht.leaves (hsyms sym hsym)
    rw [htable, ← Memory.length_codeword]
    exact Nat.ne_of_gt (ht.length_path_bounds hpath).1
  obtain ⟨e, henc, hframe, hblock, -⟩ := encBlockConcatenatesCodewords d hused hfit
  have hte : Holds t e := htd.of_treePart (by rw [hframe]; rfl)
  have hroot : t.sub e.cursor = some t := by
    rw [hframe, hcursor]
    exact t.sub_zero
  have hwalk : t.walk t e.blockBits = (d.inputBytes, t) := by
    rw [hblock, htable]
    exact HTree.walk_codewords ht.isNode ht.leaves hsyms
  obtain ⟨c, hsub, hdec⟩ := hte.exec_decBlock hroot ht.isNode
  rw [hwalk] at hsub hdec
  have herr : e.err = d.err := by rw [hframe]
  exact ⟨e, _, henc, hdec, Memory.bytes_putBytes _ e.obuf, HTree.eq_zero_of_sub_self hsub, herr, herr⟩

end Sys2Proof.Machine
end

section
/-! The statement of 60_exceptions.md on the interrupt line (R175 to R177): IRQ_EN AND DONE after each event that writes one of
the two. -/

namespace Sys2Proof.Machine

/-- A host write leaves one state: what it is shown to leave is what it leaves. -/
theorem HostWrites.unique {s t u : State} {off : Nat} {v : Word} (ht : HostWrites s off v t) (hu : HostWrites s off v u) :
    t = u :=
  Host.Outcome.next.inj (ht.symm.trans hu)

/-- The line is low while DONE is 0, enabled or not (R176). -/
theorem State.irq_of_not_done {s : State} (h : s.done = false) : s.irq = false := by
  rw [State.irq, h, Bool.and_false]

/-- A command that ends leaves the line at IRQ_EN: it sets DONE (`exec_done`) and leaves CTRL alone (O14). -/
theorem exec_irq {i : Instr} {s t : State} (h : exec i s = .next t) : t.irq = s.irqEn := by
  obtain ⟨-, hen, -⟩ := onlyNamedCommandsWrite i s t h
  rw [State.irq, exec_done h, hen, Bool.and_true]

/-- Settles O49: the end of a command by `exec_irq`, and each of the three writes by the state it is known to leave (O8, O39), in
which issue and W1C have DONE at 0 and a CTRL write has DONE as before. -/
theorem interruptFollowsDone : Obligations.InterruptFollowsDone := by
  refine ⟨fun _ _ _ => exec_irq, fun s t c hb hw => ?issue, fun s t v hm hv hw => ?ack, fun s t v hm hw => ?ctrl⟩
  case issue =>
    obtain ⟨delay, hissued⟩ := commandWriteIssues s c hb
    rw [hw.unique hissued]
    exact State.irq_of_not_done rfl
  case ack =>
    obtain ⟨-, hacked⟩ := ctrlAndStatusWrites s v hm
    rw [hw.unique hacked]
    exact State.irq_of_not_done (if_pos hv)
  case ctrl =>
    obtain ⟨hset, -⟩ := ctrlAndStatusWrites s v hm
    rw [hw.unique hset]
    exact ⟨rfl, rfl⟩

end Sys2Proof.Machine
end

section
/-! The statement of 70_reset_and_hazards.md on the host's accesses while a command is pending (R196): where the six registers that
may be read and the three that may be written lie, and what an access does there and elsewhere. -/

namespace Sys2Proof.Machine

/-! ### The offsets of the registers R196 names -/

/-- A register that may be written while a command is pending may be read then too. -/
theorem Loc.readableWhileBusy_of_writableWhileBusy {l : Loc} (h : l.writableWhileBusy = true) : l.readableWhileBusy = true := by
  cases l with
  | ctrl | status | cmd => rfl
  | _ => cases h

/-- Of the registers the first six may be read while a command is pending. -/
theorem readableWhileBusy_registerAt (k : Nat) : (registerAt k).readableWhileBusy = true ↔ k < 6 := by
  by_cases h : k < 14
  · have hmap : ∀ j < 14, (registerAt j).readableWhileBusy = true ↔ j < 6 := by decide
    exact hmap k h
  · rw [registerAt_of_ge k (by omega)]
    exact iff_of_false Bool.false_ne_true (by omega)

/-- Of the registers CTRL, CMD and STATUS may be written while a command is pending. -/
theorem writableWhileBusy_registerAt (k : Nat) : (registerAt k).writableWhileBusy = true ↔ 3 ≤ k ∧ k < 6 := by
  by_cases h : k < 14
  · have hmap : ∀ j < 14, (registerAt j).writableWhileBusy = true ↔ 3 ≤ j ∧ j < 6 := by decide
    exact hmap k h
  · rw [registerAt_of_ge k (by omega)]
    exact iff_of_false Bool.false_ne_true (by omega)

/-- What may be read while a command is pending lies below the windows, whatever the parameters. -/
theorem lt_of_readableWhileBusy_locate {c : Config} {off : Nat} (h : (locate c off).readableWhileBusy = true) :
    off < 0x4000 := by
  by_contra hreg
  simp only [locate, cwtAt, if_neg hreg] at h
  split_ifs at h <;> cases h

/-- The offsets at which a read while a command is pending is answered as at any other time (R196). -/
theorem readableWhileBusy_locate_iff {c : Config} {off : Nat} (h8 : off % 8 = 0) :
    (locate c off).readableWhileBusy = true ↔ off ∈ [0x00, 0x08, 0x10, 0x18, 0x20, 0x28] := by
  have hregister (hreg : off < 0x4000) : (locate c off).readableWhileBusy = true ↔ off / 8 < 6 := by
    rw [locate_register c off hreg, readableWhileBusy_registerAt]
  simp only [List.mem_cons, List.not_mem_nil, or_false]
  constructor
  · intro h
    have := (hregister (lt_of_readableWhileBusy_locate h)).1 h
    omega
  · intro h
    exact (hregister (by omega)).2 (by omega)

/-- The offsets at which a write while a command is pending is performed (R196). -/
theorem writableWhileBusy_locate_iff {c : Config} {off : Nat} (h8 : off % 8 = 0) :
    (locate c off).writableWhileBusy = true ↔ off ∈ [0x18, 0x20, 0x28] := by
  have hregister (hreg : off < 0x4000) : (locate c off).writableWhileBusy = true ↔ 3 ≤ off / 8 ∧ off / 8 < 6 := by
    rw [locate_register c off hreg, writableWhileBusy_registerAt]
  simp only [List.mem_cons, List.not_mem_nil, or_false]
  constructor
  · intro h
    have := (hregister (lt_of_readableWhileBusy_locate (Loc.readableWhileBusy_of_writableWhileBusy h))).1 h
    omega
  · intro h
    exact (hregister (by omega)).2 (by omega)

/-! ### Accesses while a command is pending -/

/-- A register that may be read while a command is pending always holds a word of its own. -/
theorem State.exists_readLoc_of_readableWhileBusy (s : State) {l : Loc} (h : l.readableWhileBusy = true) :
    ∃ r, s.readLoc l = some r := by
  cases l with
  | id | cfg0 | cfg1 | ctrl | cmd | status => exact ⟨_, rfl⟩
  | _ => cases h

theorem State.busRead_of_readableWhileBusy (s : State) {l : Loc} (h : l.readableWhileBusy = true) :
    s.busRead l = s.readLoc l := by
  simp [State.busRead, h]

theorem State.busRead_eq_none_of_pending {s : State} {l : Loc} (hb : s.busy = true) (h : l.readableWhileBusy = false) :
    s.busRead l = none := by
  simp [State.busRead, hb, h]

/-- At the host's turn a write that the location does not take while a command is pending is refused (R196). -/
theorem step_write_refused {s : State} {off : Nat} (v : Word) (hm : s.hostMoves) (hb : s.busy = true)
    (hoff : off < 0x400000 ∧ off % 8 = 0) (hw : (locate s.cfg off).writableWhileBusy = false) :
    step (s.asks (.write (s.cfg.base + off) 8 v)) = .refused .writeWhileBusy := by
  rw [step_asks s _ hm (by simp), hostAct, ← s.waited_cfg, hostWrite_eq s.waited off v hoff.1 hoff.2, if_pos]
  simp [hb, hw]

/-- Settles O47: the lists of the statement are the offsets of the registers that may be read (`readableWhileBusy_locate_iff`) and
written (`writableWhileBusy_locate_iff`) while a command is pending. -/
theorem accessesWhileBusy : Obligations.AccessesWhileBusy := by
  intro s off v hb hdelay h8 hoff
  have hm : s.hostMoves := fun _ => hdelay
  refine ⟨fun hread => ?_, fun hother => ?_, fun hwrite => ?_, fun hother => ?_⟩
  · have hl := (readableWhileBusy_locate_iff (c := s.cfg) h8).2 hread
    obtain ⟨r, hr⟩ := s.exists_readLoc_of_readableWhileBusy hl
    exact ⟨r, hostReads_of_busRead hm ⟨hoff, h8⟩ ((s.busRead_of_readableWhileBusy hl).trans hr), hr⟩
  · have hl := Bool.eq_false_iff.2 (mt (readableWhileBusy_locate_iff (c := s.cfg) h8).1 hother)
    exact hostReadsAnyValue_of_busRead hm ⟨hoff, h8⟩ (State.busRead_eq_none_of_pending hb hl)
  · have hl := (writableWhileBusy_locate_iff (c := s.cfg) h8).2 hwrite
    exact ⟨_, hostWrites_of_hostMoves hm ⟨hoff, h8⟩ rfl fun _ => hl⟩
  · have hl := Bool.eq_false_iff.2 (mt (writableWhileBusy_locate_iff (c := s.cfg) h8).1 hother)
    exact step_write_refused v hm hb ⟨hoff, h8⟩ hl

end Sys2Proof.Machine
end
